-- ==== Sys2Proof/Word.lean ====
section
/-! DEFINITION. The one word of the machine: a byte. Registers, memory cells, numbers and address
bytes are all unsigned bytes 0..255 (00_scope R12, 10_state R20, R34). -/

namespace Sys2Proof

/-- An unsigned byte, bit 0 its least significant bit (00_scope R11, R12). -/
abbrev Byte := BitVec 8

/-- A register index of a packed pair, 0..15 (30_encoding R84). -/
abbrev Nibble := BitVec 4

end Sys2Proof
end

