-- ==== Sys2Proof/Syntax.lean ====
section
/-! DEFINITION. The instruction set as syntax (30_encoding): the register names, the five formats,
the 34 opcodes of R95, the type of an opcode map, and `Instr`, one constructor per row of
spec/opcode_table.json with its operand fields as the bytes hold them. -/

namespace Sys2Proof

/-- The four general registers, indices 0, 1, 2 and 3 (10_state R20). -/
inductive Reg where
  | A
  | B
  | C
  | D
  deriving DecidableEq, Repr

/-- The five instruction formats (30_encoding R81): none, packed pair, register and byte, register,
byte. -/
inductive InstrFormat where
  | n
  | p
  | rb
  | r
  | b
  deriving DecidableEq, Repr

/-- The 34 opcodes, in the order of 30_encoding R95: the closed enumeration of R94. -/
inductive Opcode where
  | stop
  | movRegToReg
  | movRegaddrToReg
  | movNumToReg
  | movAddrToReg
  | addRegToReg
  | addRegaddrToReg
  | addNumToReg
  | addAddrToReg
  | subRegFromReg
  | subRegaddrFromReg
  | subNumFromReg
  | subAddrFromReg
  | cmpRegWithReg
  | cmpRegaddrWithReg
  | cmpNumWithReg
  | cmpAddrWithReg
  | incReg
  | decReg
  | jmpReg
  | jmpAddr
  | jcReg
  | jcAddr
  | jncReg
  | jncAddr
  | jzReg
  | jzAddr
  | jnzReg
  | jnzAddr
  | pushReg
  | pushRegaddr
  | pushAddr
  | pushNum
  | popReg
  deriving DecidableEq, Repr

/-- Every opcode once, in the order of 30_encoding R95. -/
def Opcode.all : List Opcode :=
  [.stop, .movRegToReg, .movRegaddrToReg, .movNumToReg, .movAddrToReg,
   .addRegToReg, .addRegaddrToReg, .addNumToReg, .addAddrToReg,
   .subRegFromReg, .subRegaddrFromReg, .subNumFromReg, .subAddrFromReg,
   .cmpRegWithReg, .cmpRegaddrWithReg, .cmpNumWithReg, .cmpAddrWithReg,
   .incReg, .decReg, .jmpReg, .jmpAddr,
   .jcReg, .jcAddr, .jncReg, .jncAddr,
   .jzReg, .jzAddr, .jnzReg, .jnzAddr,
   .pushReg, .pushRegaddr, .pushAddr, .pushNum, .popReg]

/-- OPCODE_MAP (00_scope R9): the byte value of each opcode, one row per opcode. -/
abbrev OpcodeMap := List (Opcode × Byte)

/-- An instruction with its operand fields as decoded. `d` is a destination register index and `r` a
source or sole register index, both unchecked: an index above 3 is a well encoded operand that raises
RegisterFault when the instruction runs (10_state R22, 30_encoding R97). `n` is a number byte and `a`
an address byte (R86). -/
inductive Instr where
  /-- STOP, `STOP` (R300). -/
  | stop
  /-- MOV_REG_TO_REG, `MOV d, r` (R200). -/
  | movRegToReg (d r : Nibble)
  /-- MOV_REGADDR_TO_REG, `MOV d, [r]` (R201). -/
  | movRegaddrToReg (d r : Nibble)
  /-- MOV_NUM_TO_REG, `MOV d, n` (R202). -/
  | movNumToReg (d n : Byte)
  /-- MOV_ADDR_TO_REG, `MOV d, [a]` (R203). -/
  | movAddrToReg (d a : Byte)
  /-- ADD_REG_TO_REG, `ADD d, r` (R160). -/
  | addRegToReg (d r : Nibble)
  /-- ADD_REGADDR_TO_REG, `ADD d, [r]` (R161). -/
  | addRegaddrToReg (d r : Nibble)
  /-- ADD_NUM_TO_REG, `ADD d, n` (R162). -/
  | addNumToReg (d n : Byte)
  /-- ADD_ADDR_TO_REG, `ADD d, [a]` (R163). -/
  | addAddrToReg (d a : Byte)
  /-- SUB_REG_FROM_REG, `SUB d, r` (R165). -/
  | subRegFromReg (d r : Nibble)
  /-- SUB_REGADDR_FROM_REG, `SUB d, [r]` (R166). -/
  | subRegaddrFromReg (d r : Nibble)
  /-- SUB_NUM_FROM_REG, `SUB d, n` (R167). -/
  | subNumFromReg (d n : Byte)
  /-- SUB_ADDR_FROM_REG, `SUB d, [a]` (R168). -/
  | subAddrFromReg (d a : Byte)
  /-- CMP_REG_WITH_REG, `CMP d, r` (R170). -/
  | cmpRegWithReg (d r : Nibble)
  /-- CMP_REGADDR_WITH_REG, `CMP d, [r]` (R171). -/
  | cmpRegaddrWithReg (d r : Nibble)
  /-- CMP_NUM_WITH_REG, `CMP d, n` (R172). -/
  | cmpNumWithReg (d n : Byte)
  /-- CMP_ADDR_WITH_REG, `CMP d, [a]` (R173). -/
  | cmpAddrWithReg (d a : Byte)
  /-- INC_REG, `INC r` (R175). -/
  | incReg (r : Byte)
  /-- DEC_REG, `DEC r` (R176). -/
  | decReg (r : Byte)
  /-- JMP_REG, `JMP r` (R235). -/
  | jmpReg (r : Byte)
  /-- JMP_ADDR, `JMP a` (R236). -/
  | jmpAddr (a : Byte)
  /-- JC_REG, `JC r` (R237). -/
  | jcReg (r : Byte)
  /-- JC_ADDR, `JC a` (R238). -/
  | jcAddr (a : Byte)
  /-- JNC_REG, `JNC r` (R239). -/
  | jncReg (r : Byte)
  /-- JNC_ADDR, `JNC a` (R240). -/
  | jncAddr (a : Byte)
  /-- JZ_REG, `JZ r` (R241). -/
  | jzReg (r : Byte)
  /-- JZ_ADDR, `JZ a` (R242). -/
  | jzAddr (a : Byte)
  /-- JNZ_REG, `JNZ r` (R243). -/
  | jnzReg (r : Byte)
  /-- JNZ_ADDR, `JNZ a` (R244). -/
  | jnzAddr (a : Byte)
  /-- PUSH_REG, `PUSH r` (R271). -/
  | pushReg (r : Byte)
  /-- PUSH_REGADDR, `PUSH [r]` (R272). -/
  | pushRegaddr (r : Byte)
  /-- PUSH_ADDR, `PUSH [a]` (R273). -/
  | pushAddr (a : Byte)
  /-- PUSH_NUM, `PUSH n` (R274). -/
  | pushNum (n : Byte)
  /-- POP_REG, `POP r` (R281). -/
  | popReg (r : Byte)
  deriving DecidableEq, Repr

end Sys2Proof
end

