-- ==== Sys2Proof/Config.lean ====
section
/-! DEFINITION. The parameters of the machine (00_scope R9), which no step changes. Their default
values stand in Sys2Proof/Machine/Defaults.lean. The spec leaves no value free, so there is no free
value here. -/

namespace Sys2Proof

/-- NEG_WRAP_RULE: how a negative raw result becomes a byte (00_scope R9, 41_arithmetic R150). -/
inductive NegWrapRule where
  /-- 255 - ((-r) mod 256), the default. -/
  | docFormula
  /-- r mod 256. -/
  | mod256
  deriving DecidableEq, Repr

/-- The parameters of 00_scope R9. -/
structure Config where
  /-- N, the number of memory cells. -/
  memSize : Nat
  /-- SP_INIT, the stack pointer after reset. -/
  spInit : Nat
  /-- NEG_WRAP_RULE. -/
  negWrap : NegWrapRule
  /-- OPCODE_MAP. -/
  opcodeMap : OpcodeMap
  deriving DecidableEq, Repr

/-- The map has exactly one row per opcode, in the table's order, and no byte twice: it is a one-to-one
map from the 34 forms to byte values (00_scope R9). -/
def OpcodeMap.legal (m : OpcodeMap) : Bool :=
  decide (m.map Prod.fst = Opcode.all) && decide ((m.map Prod.snd).Nodup)

/-- The legal values of the parameters (00_scope R9, 70_reset R355). -/
def Config.legal (c : Config) : Bool :=
  decide (1 ≤ c.memSize) && decide (c.memSize ≤ 65536) && decide (c.spInit < c.memSize) &&
    c.opcodeMap.legal

/-- The least k with n ≤ 2^k, for n ≥ 1. -/
def ceilLog2 (n : Nat) : Nat :=
  if n ≤ 1 then 0 else (n - 1).log2 + 1

/-- IPW, the width of the smallest register that holds 0..N (00_scope R10). -/
def Config.ipWidth (c : Config) : Nat :=
  ceilLog2 (c.memSize + 1)

/-- SPW, the width of the smallest two's-complement register that holds -1..N-1 (00_scope R10). -/
def Config.spWidth (c : Config) : Nat :=
  ceilLog2 c.memSize + 1

end Sys2Proof
end

