-- ==== Sys2Proof/WellFormed.lean ====
section
/-! DEFINITION. Which instructions name only what exists: every register field is 0..3
(30_encoding R97, 70_reset R362). This is no condition for an instruction to run: one that names a
missing register runs and raises RegisterFault. DEDUCED, safe (log entry 10). -/

namespace Sys2Proof

/-- The register fields of an instruction, as numbers, in the order their checks are made
(40_execution R126 phase 3: for a packed pair the destination nibble first). -/
def Instr.registerFields : Instr → List Nat
  | .stop => []
  | .movRegToReg d r => [d.toNat, r.toNat]
  | .movRegaddrToReg d r => [d.toNat, r.toNat]
  | .movNumToReg d _ => [d.toNat]
  | .movAddrToReg d _ => [d.toNat]
  | .addRegToReg d r => [d.toNat, r.toNat]
  | .addRegaddrToReg d r => [d.toNat, r.toNat]
  | .addNumToReg d _ => [d.toNat]
  | .addAddrToReg d _ => [d.toNat]
  | .subRegFromReg d r => [d.toNat, r.toNat]
  | .subRegaddrFromReg d r => [d.toNat, r.toNat]
  | .subNumFromReg d _ => [d.toNat]
  | .subAddrFromReg d _ => [d.toNat]
  | .cmpRegWithReg d r => [d.toNat, r.toNat]
  | .cmpRegaddrWithReg d r => [d.toNat, r.toNat]
  | .cmpNumWithReg d _ => [d.toNat]
  | .cmpAddrWithReg d _ => [d.toNat]
  | .incReg r => [r.toNat]
  | .decReg r => [r.toNat]
  | .jmpReg r => [r.toNat]
  | .jmpAddr _ => []
  | .jcReg r => [r.toNat]
  | .jcAddr _ => []
  | .jncReg r => [r.toNat]
  | .jncAddr _ => []
  | .jzReg r => [r.toNat]
  | .jzAddr _ => []
  | .jnzReg r => [r.toNat]
  | .jnzAddr _ => []
  | .pushReg r => [r.toNat]
  | .pushRegaddr r => [r.toNat]
  | .pushAddr _ => []
  | .pushNum _ => []
  | .popReg r => [r.toNat]

/-- Every register field names one of the four registers (30_encoding R97). Numbers and addresses are
well-formed at every value. -/
def Instr.wellFormed (i : Instr) : Bool :=
  i.registerFields.all fun k => decide (k ≤ 3)

end Sys2Proof
end

