-- ==== Sys2Proof/Decode.lean ====
section
/-! DEFINITION. The opcode map, the formats' lengths, the decoder (total on any bytes, rejecting by name) and the encoder
(30_encoding). -/

namespace Sys2Proof

/-- The default OPCODE_MAP: the table of 30_encoding R95, the spec's own choice (92 D5). -/
def OpcodeMap.default : OpcodeMap :=
  [(.stop, 0x00#8), (.movRegToReg, 0x01#8),
   (.movRegaddrToReg, 0x02#8), (.movNumToReg, 0x03#8),
   (.movAddrToReg, 0x04#8), (.addRegToReg, 0x05#8),
   (.addRegaddrToReg, 0x06#8), (.addNumToReg, 0x07#8),
   (.addAddrToReg, 0x08#8), (.subRegFromReg, 0x09#8),
   (.subRegaddrFromReg, 0x0A#8), (.subNumFromReg, 0x0B#8),
   (.subAddrFromReg, 0x0C#8), (.cmpRegWithReg, 0x0D#8),
   (.cmpRegaddrWithReg, 0x0E#8), (.cmpNumWithReg, 0x0F#8),
   (.cmpAddrWithReg, 0x10#8), (.incReg, 0x11#8),
   (.decReg, 0x12#8), (.jmpReg, 0x13#8),
   (.jmpAddr, 0x14#8), (.jcReg, 0x15#8),
   (.jcAddr, 0x16#8), (.jncReg, 0x17#8),
   (.jncAddr, 0x18#8), (.jzReg, 0x19#8),
   (.jzAddr, 0x1A#8), (.jnzReg, 0x1B#8),
   (.jnzAddr, 0x1C#8), (.pushReg, 0x1D#8),
   (.pushRegaddr, 0x1E#8), (.pushAddr, 0x1F#8),
   (.pushNum, 0x20#8), (.popReg, 0x21#8)]

/-- The length of an instruction in bytes, its opcode byte counted (30_encoding R83). -/
def InstrFormat.length : InstrFormat → Nat
  | .n => 1
  | .p => 2
  | .rb => 3
  | .r => 2
  | .b => 2

/-- The format the opcode alone selects (30_encoding R80, R81, R95). -/
def Opcode.format : Opcode → InstrFormat
  | .stop => .n
  | .movRegToReg => .p
  | .movRegaddrToReg => .p
  | .movNumToReg => .rb
  | .movAddrToReg => .rb
  | .addRegToReg => .p
  | .addRegaddrToReg => .p
  | .addNumToReg => .rb
  | .addAddrToReg => .rb
  | .subRegFromReg => .p
  | .subRegaddrFromReg => .p
  | .subNumFromReg => .rb
  | .subAddrFromReg => .rb
  | .cmpRegWithReg => .p
  | .cmpRegaddrWithReg => .p
  | .cmpNumWithReg => .rb
  | .cmpAddrWithReg => .rb
  | .incReg => .r
  | .decReg => .r
  | .jmpReg => .r
  | .jmpAddr => .b
  | .jcReg => .r
  | .jcAddr => .b
  | .jncReg => .r
  | .jncAddr => .b
  | .jzReg => .r
  | .jzAddr => .b
  | .jnzReg => .r
  | .jnzAddr => .b
  | .pushReg => .r
  | .pushRegaddr => .r
  | .pushAddr => .b
  | .pushNum => .b
  | .popReg => .r

/-- The instruction's length, known from the opcode alone (30_encoding R98). -/
def Opcode.length (o : Opcode) : Nat :=
  o.format.length

/-- The opcode of an instruction. -/
def Instr.opcode : Instr → Opcode
  | .stop => .stop
  | .movRegToReg _ _ => .movRegToReg
  | .movRegaddrToReg _ _ => .movRegaddrToReg
  | .movNumToReg _ _ => .movNumToReg
  | .movAddrToReg _ _ => .movAddrToReg
  | .addRegToReg _ _ => .addRegToReg
  | .addRegaddrToReg _ _ => .addRegaddrToReg
  | .addNumToReg _ _ => .addNumToReg
  | .addAddrToReg _ _ => .addAddrToReg
  | .subRegFromReg _ _ => .subRegFromReg
  | .subRegaddrFromReg _ _ => .subRegaddrFromReg
  | .subNumFromReg _ _ => .subNumFromReg
  | .subAddrFromReg _ _ => .subAddrFromReg
  | .cmpRegWithReg _ _ => .cmpRegWithReg
  | .cmpRegaddrWithReg _ _ => .cmpRegaddrWithReg
  | .cmpNumWithReg _ _ => .cmpNumWithReg
  | .cmpAddrWithReg _ _ => .cmpAddrWithReg
  | .incReg _ => .incReg
  | .decReg _ => .decReg
  | .jmpReg _ => .jmpReg
  | .jmpAddr _ => .jmpAddr
  | .jcReg _ => .jcReg
  | .jcAddr _ => .jcAddr
  | .jncReg _ => .jncReg
  | .jncAddr _ => .jncAddr
  | .jzReg _ => .jzReg
  | .jzAddr _ => .jzAddr
  | .jnzReg _ => .jnzReg
  | .jnzAddr _ => .jnzAddr
  | .pushReg _ => .pushReg
  | .pushRegaddr _ => .pushRegaddr
  | .pushAddr _ => .pushAddr
  | .pushNum _ => .pushNum
  | .popReg _ => .popReg

/-- The instruction's length in bytes (30_encoding R83). -/
def Instr.length (i : Instr) : Nat :=
  i.opcode.length

/-- The byte a map gives an opcode. A legal map has a row for every opcode, so the last arm answers
for no opcode of a legal map. -/
def OpcodeMap.byteOf : OpcodeMap → Opcode → Byte
  | [], _ => 0
  | (o, b) :: rest, x => if o = x then b else OpcodeMap.byteOf rest x

/-- The opcode a map assigns to a byte, or none: an unknown opcode (30_encoding R94, R96). No legal map
has a byte twice; the first row counts in one that does (log entry 7). -/
def OpcodeMap.opcodeOf : OpcodeMap → Byte → Option Opcode
  | [], _ => none
  | (o, b) :: rest, x => if b = x then some o else OpcodeMap.opcodeOf rest x

/-- Bits 7..4 of a byte (30_encoding R84). -/
def highNibble (b : Byte) : Nibble :=
  BitVec.ofNat 4 (b.toNat / 16)

/-- Bits 3..0 of a byte (30_encoding R84). -/
def lowNibble (b : Byte) : Nibble :=
  BitVec.ofNat 4 (b.toNat % 16)

/-- The packed byte `(d << 4) | r` (30_encoding R101). -/
def packNibbles (d r : Nibble) : Byte :=
  BitVec.ofNat 8 (d.toNat * 16 + r.toNat)

/-- Why bytes do not decode. -/
inductive DecodeError where
  /-- The opcode byte is not assigned by the map (30_encoding R96). -/
  | unknownOpcode (op : Byte)
  /-- Byte `k` of the instruction is not there (byte 0 is the opcode). -/
  | missingByte (k : Nat)
  deriving DecidableEq, Repr

/-- The instruction an opcode and its operand bytes 1 and 2 make (30_encoding R81, R84 to R86). A
format with fewer operand bytes does not look at the others. -/
def Opcode.assemble (o : Opcode) (b1 b2 : Byte) : Instr :=
  match o with
  | .stop => .stop
  | .movRegToReg => .movRegToReg (highNibble b1) (lowNibble b1)
  | .movRegaddrToReg => .movRegaddrToReg (highNibble b1) (lowNibble b1)
  | .movNumToReg => .movNumToReg b1 b2
  | .movAddrToReg => .movAddrToReg b1 b2
  | .addRegToReg => .addRegToReg (highNibble b1) (lowNibble b1)
  | .addRegaddrToReg => .addRegaddrToReg (highNibble b1) (lowNibble b1)
  | .addNumToReg => .addNumToReg b1 b2
  | .addAddrToReg => .addAddrToReg b1 b2
  | .subRegFromReg => .subRegFromReg (highNibble b1) (lowNibble b1)
  | .subRegaddrFromReg => .subRegaddrFromReg (highNibble b1) (lowNibble b1)
  | .subNumFromReg => .subNumFromReg b1 b2
  | .subAddrFromReg => .subAddrFromReg b1 b2
  | .cmpRegWithReg => .cmpRegWithReg (highNibble b1) (lowNibble b1)
  | .cmpRegaddrWithReg => .cmpRegaddrWithReg (highNibble b1) (lowNibble b1)
  | .cmpNumWithReg => .cmpNumWithReg b1 b2
  | .cmpAddrWithReg => .cmpAddrWithReg b1 b2
  | .incReg => .incReg b1
  | .decReg => .decReg b1
  | .jmpReg => .jmpReg b1
  | .jmpAddr => .jmpAddr b1
  | .jcReg => .jcReg b1
  | .jcAddr => .jcAddr b1
  | .jncReg => .jncReg b1
  | .jncAddr => .jncAddr b1
  | .jzReg => .jzReg b1
  | .jzAddr => .jzAddr b1
  | .jnzReg => .jnzReg b1
  | .jnzAddr => .jnzAddr b1
  | .pushReg => .pushReg b1
  | .pushRegaddr => .pushRegaddr b1
  | .pushAddr => .pushAddr b1
  | .pushNum => .pushNum b1
  | .popReg => .popReg b1

/-- The operands of a format with one operand byte. -/
def decodeOne (o : Opcode) : List Byte → Except DecodeError (Instr × List Byte)
  | [] => .error (.missingByte 1)
  | b1 :: rest => .ok (o.assemble b1 0, rest)

/-- The operands of a format with two operand bytes. -/
def decodeTwo (o : Opcode) : List Byte → Except DecodeError (Instr × List Byte)
  | [] => .error (.missingByte 1)
  | [_] => .error (.missingByte 2)
  | b1 :: b2 :: rest => .ok (o.assemble b1 b2, rest)

/-- Read one instruction from the front of a list of bytes and give back the rest, or say why not
(30_encoding R80 to R82, R94, R96). The opcode is looked at first and alone. -/
def decode (m : OpcodeMap) : List Byte → Except DecodeError (Instr × List Byte)
  | [] => .error (.missingByte 0)
  | op :: rest =>
    match m.opcodeOf op with
    | none => .error (.unknownOpcode op)
    | some o =>
      match o.format with
      | .n => .ok (o.assemble 0 0, rest)
      | .p => decodeOne o rest
      | .rb => decodeTwo o rest
      | .r => decodeOne o rest
      | .b => decodeOne o rest

/-- The operand bytes of an instruction (30_encoding R81, R101). -/
def Instr.operandBytes : Instr → List Byte
  | .stop => []
  | .movRegToReg d r => [packNibbles d r]
  | .movRegaddrToReg d r => [packNibbles d r]
  | .movNumToReg d n => [d, n]
  | .movAddrToReg d a => [d, a]
  | .addRegToReg d r => [packNibbles d r]
  | .addRegaddrToReg d r => [packNibbles d r]
  | .addNumToReg d n => [d, n]
  | .addAddrToReg d a => [d, a]
  | .subRegFromReg d r => [packNibbles d r]
  | .subRegaddrFromReg d r => [packNibbles d r]
  | .subNumFromReg d n => [d, n]
  | .subAddrFromReg d a => [d, a]
  | .cmpRegWithReg d r => [packNibbles d r]
  | .cmpRegaddrWithReg d r => [packNibbles d r]
  | .cmpNumWithReg d n => [d, n]
  | .cmpAddrWithReg d a => [d, a]
  | .incReg r => [r]
  | .decReg r => [r]
  | .jmpReg r => [r]
  | .jmpAddr a => [a]
  | .jcReg r => [r]
  | .jcAddr a => [a]
  | .jncReg r => [r]
  | .jncAddr a => [a]
  | .jzReg r => [r]
  | .jzAddr a => [a]
  | .jnzReg r => [r]
  | .jnzAddr a => [a]
  | .pushReg r => [r]
  | .pushRegaddr r => [r]
  | .pushAddr a => [a]
  | .pushNum n => [n]
  | .popReg r => [r]

/-- The bytes of an instruction, the opcode first, at rising addresses (30_encoding R82, R101). -/
def encode (m : OpcodeMap) (i : Instr) : List Byte :=
  m.byteOf i.opcode :: i.operandBytes

/-- The longest instruction's bytes, read from a number whose bits 7..0 are byte 0, 15..8 byte 1 and
23..16 byte 2; every bit from `nbits` up is 0 (opcode_table.json's numbering). -/
def tableBytes (nbits w : Nat) : List Byte :=
  let v := w % 2 ^ nbits
  [BitVec.ofNat 8 v, BitVec.ofNat 8 (v / 2 ^ 8), BitVec.ofNat 8 (v / 2 ^ 16)]

/-- The instruction the decoder reads from a word of the opcode table, under the default map. -/
def decodeTableWord (nbits w : Nat) : Option Instr :=
  match decode OpcodeMap.default (tableBytes nbits w) with
  | .ok (i, _) => some i
  | .error _ => none

end Sys2Proof
end

