-- ==== Sys2Proof/Machine/Defaults.lean ====
section
/-! DEFINITION. The default values of the parameters (00_scope R9). Only State.reset, decodeTableWord
and the tests use them; no meaning does. -/

namespace Sys2Proof

/-- The spec's own default parameters (00_scope R9, 92 D1, D4, D5, D20): N = 256, SP_INIT = 0xE8,
DOC_FORMULA and the map of 30_encoding R95. UNVERIFIED against any real asm-sim: the source gives
examples only. Safe for statements over every configuration, unsafe for one about State.reset
(log entry 2). -/
def Config.default : Config where
  memSize := 256
  spInit := 0xE8
  negWrap := .docFormula
  opcodeMap := OpcodeMap.default

end Sys2Proof
end

