-- ==== Sys2Proof/Machine/State.lean ====
section
/-! DEFINITION. The state of the machine as plain data, its reset value, and the reasons a step can
stop (10_state, 60_exceptions). -/

namespace Sys2Proof.Machine

/-- The register file: A, B, C and D, eight bits each (10_state R20). -/
structure Regs where
  a : Byte
  b : Byte
  c : Byte
  d : Byte
  deriving DecidableEq, Repr

/-- The machine state: Ready, Halted or Faulted (10_state R30). -/
inductive Status where
  | ready
  | halted
  | faulted
  deriving DecidableEq, Repr

/-- A fault an instruction can raise, with the info it records (60_exceptions R310). -/
inductive FaultRecord where
  /-- AddressFault(a): a memory or jump address outside 0..N-1; it may be -1 or N and above (R311). -/
  | addressFault (a : Int)
  /-- RegisterFault(i): a register index above 3 (R312). -/
  | registerFault (i : Nat)
  /-- UnknownOpcodeFault(op): a byte the opcode map does not assign (R313). -/
  | unknownOpcodeFault (op : Byte)
  deriving DecidableEq, Repr

/-- Memory as a list of cells in canonical form: addresses strictly rising, no cell listed that holds
what an unlisted cell reads as (`Memory.unlisted`). -/
abbrev Memory := List Host.Cell

/-- What a cell that is not listed reads as: 0, since memory is zero at every reset (10_state R34). -/
def Memory.unlisted : Byte := 0

/-- The canonical form: addresses strictly rising and no listed cell equal to `Memory.unlisted`. -/
def Memory.wf (m : Memory) : Bool :=
  decide (m.Pairwise fun c c' => c.1 < c'.1) && m.all fun c => decide (c.2 ≠ Memory.unlisted)

/-- Every listed address lies below `n`: the cells are M[0..n-1] (10_state R34). -/
def Memory.below (n : Nat) (m : Memory) : Bool :=
  m.all fun c => decide (c.1 < n)

/-- All the state the spec gives the machine (10_state R36), and its parameters (00_scope R9). The
fault flag is the same bit as `status = faulted` (R29, R30) and is stored there once. -/
structure State where
  /-- The parameters; no step changes them. DESIGN CHOICE, safe (log entry 1). -/
  config : Config
  /-- x[0..3] (R20). -/
  regs : Regs
  /-- IP, an integer 0..N (R24). DEDUCED from 00_scope R10, safe: the range, not a width, is
  architectural (log entry 5). -/
  pc : Nat
  /-- SP, an integer -1..N-1 (R27). As IP (log entry 5). -/
  sp : Int
  /-- The carry flag (R29). -/
  carry : Bool
  /-- The zero flag (R29). -/
  zero : Bool
  /-- STATE (R30). -/
  status : Status
  /-- FAULT_INFO, the record of the first fault, or none (R31). -/
  faultInfo : Option FaultRecord
  /-- M[0..N-1] (R34). -/
  mem : Memory
  deriving DecidableEq, Repr

/-- Why a step answers no next state. -/
inductive Fault where
  /-- StickyFault(fault_info): a tick of a machine that is already Faulted (60_exceptions R315,
  40_execution R122). Raised by `tick` alone, never by an instruction; it carries FAULT_INFO as it
  stands, and no state changes. DESIGN CHOICE (log entry
  3). Safe: the spec's own answer, and the machine makes no progress. -/
  | stickyFault (record : Option FaultRecord)
  deriving DecidableEq, Repr

/-- Why an instruction has no meaning in the model. -/
inductive Refusal where
  /-- Raised by an arm of `exec` whose instruction is not modelled. No arm raises it: every
  instruction has its meaning. Safe: nothing can be proved of a refused step. -/
  | notModelled (mnemonic : String)
  deriving DecidableEq, Repr

/-- The state after reset of a machine with the given parameters (10_state R36, 70_reset R350). -/
def State.resetWith (c : Config) : State where
  config := c
  regs := { a := 0, b := 0, c := 0, d := 0 }
  pc := 0
  sp := c.spInit
  carry := false
  zero := false
  status := .ready
  faultInfo := none
  mem := []

/-- The default machine right after reset or power-on (70_reset R350, R353). -/
def State.reset : State :=
  State.resetWith Config.default

end Sys2Proof.Machine
end

