-- ==== Sys2Proof/Machine/Ops.lean ====
section
/-! DEFINITION. The named operations over registers, memory, the pointers and the machine state, taking
a fault, and reset, the one way out of it (10_state, 20_memory, 40_execution R130, 70_reset R350).
Everything an instruction or a port does to the state goes through these. -/

namespace Sys2Proof.Machine

/-! ## Registers -/

/-- The register an index names: 0, 1, 2, 3 are A, B, C, D and no other index names one
(10_state R20, R21). -/
def regOfIndex : Nat → Option Reg
  | 0 => some .A
  | 1 => some .B
  | 2 => some .C
  | 3 => some .D
  | _ => none

/-- The value of a register. -/
def Regs.get (x : Regs) : Reg → Byte
  | .A => x.a
  | .B => x.b
  | .C => x.c
  | .D => x.d

/-- The register file with one register written. -/
def Regs.set (x : Regs) (r : Reg) (v : Byte) : Regs :=
  match r with
  | .A => { x with a := v }
  | .B => { x with b := v }
  | .C => { x with c := v }
  | .D => { x with d := v }

/-- `x[i]` read (00_scope R13). -/
def State.getReg (s : State) (r : Reg) : Byte :=
  s.regs.get r

/-- `x[i] <- v` (00_scope R13). -/
def State.setReg (s : State) (r : Reg) (v : Byte) : State :=
  { s with regs := s.regs.set r v }

/-- RegCheck(i): the register of an index 0..3, RegisterFault(i) for any other (10_state R22). -/
def regCheck (i : Nat) : Except FaultRecord Reg :=
  match regOfIndex i with
  | some r => .ok r
  | none => .error (.registerFault i)

/-! ## Memory -/

/-- The byte at an address. -/
def Memory.read : Memory → Nat → Byte
  | [], _ => Memory.unlisted
  | (b, v) :: rest, a => if b = a then v else Memory.read rest a

/-- A cell put at its place in a rising list. -/
def Memory.insert : Memory → Nat → Byte → Memory
  | [], a, v => [(a, v)]
  | (b, w) :: rest, a, v =>
    if a < b then (a, v) :: (b, w) :: rest else (b, w) :: Memory.insert rest a v

/-- The list without the cell at an address. -/
def Memory.erase (m : Memory) (a : Nat) : Memory :=
  m.filter fun c => decide (c.1 ≠ a)

/-- Memory with one byte written, in canonical form again: a cell that comes to hold what an unlisted
cell reads as is not listed. -/
def Memory.write (m : Memory) (a : Nat) (v : Byte) : Memory :=
  if v = Memory.unlisted then m.erase a else (m.erase a).insert a v

/-- Memory with bytes written at consecutive addresses from `a`, those at `n` and above left out. -/
def Memory.load (n : Nat) : Memory → Nat → List Byte → Memory
  | m, _, [] => m
  | m, a, b :: bs => Memory.load n (if a < n then m.write a b else m) (a + 1) bs

/-- MemRead(a, 1): the bounds-checked read of one byte (20_memory R52). -/
def State.memRead (s : State) (a : Int) : Except FaultRecord Byte :=
  if a < 0 ∨ (s.config.memSize : Int) ≤ a then .error (.addressFault a)
  else .ok (s.mem.read a.toNat)

/-- MemWrite(a, 1, v): the bounds-checked write of one byte (20_memory R53). -/
def State.memWrite (s : State) (a : Int) (v : Byte) : Except FaultRecord State :=
  if a < 0 ∨ (s.config.memSize : Int) ≤ a then .error (.addressFault a)
  else .ok { s with mem := s.mem.write a.toNat v }

/-! ## Pointers -/

/-- `sp <- v` (00_scope R13). -/
def State.setSp (s : State) (v : Int) : State :=
  { s with sp := v }

/-- The sequential advance `pc <- pc + length` of an instruction's commit (40_execution R125). -/
def State.advance (s : State) (length : Nat) : State :=
  { s with pc := s.pc + length }

/-- `pc <- target` (00_scope R13). -/
def State.setPc (s : State) (target : Nat) : State :=
  { s with pc := target }

/-! ## Machine state, faults and reset -/

/-- `state <- Halted`; nothing else changes (40_execution R121, 45_stop R300). -/
def State.halt (s : State) : State :=
  { s with status := .halted }

/-- Taking a fault: `state <- Faulted` and `fault_info <- f`, and nothing else changes; IP still holds
the address of the faulting instruction's opcode (40_execution R130, 60_exceptions R314, R322). -/
def State.takeFault (s : State) (f : FaultRecord) : State :=
  { s with status := .faulted, faultInfo := some f }

/-- Reset, which the host may apply between ticks in any state, and the only way out of Halted and
Faulted (70_reset R350, 60_exceptions R323). The parameters stay. -/
def State.applyReset (s : State) : State :=
  State.resetWith s.config

/-- How an instruction ends (40_execution R128, R130): all its writes at once, or the fault a phase
raised, taken from the state at the start of the tick. -/
def conclude (s : State) (r : Except FaultRecord State) : Host.Outcome State Fault Refusal :=
  match r with
  | .ok t => .next t
  | .error f => .next (s.takeFault f)

end Sys2Proof.Machine
end

