-- ==== Sys2Proof/Machine/Flags.lean ====
section
/-! DEFINITION. Every flag computation of the spec: normalisation (41_arithmetic R150 to R155) and the
flag byte of the observation port (10_state R33). -/

namespace Sys2Proof.Machine

/-- What Normalize returns: the byte, carry and zero. -/
structure Normalized where
  value : Byte
  carry : Bool
  zero : Bool
  deriving DecidableEq, Repr

/-- NegWrap(r), for a negative raw result (41_arithmetic R150). Which rule is right is conflict C1 of
the spec, settled there for DOC_FORMULA. -/
def negWrap (rule : NegWrapRule) (r : Int) : Int :=
  match rule with
  | .docFormula => 255 - (-r) % 256
  | .mod256 => r % 256

/-- Normalize(r): the byte and the two flags of a raw result, the branches tested in the source's order
(41_arithmetic R150). -/
def normalizeRaw (rule : NegWrapRule) (r : Int) : Normalized :=
  if 256 ≤ r then { value := BitVec.ofInt 8 (r % 256), carry := true, zero := false }
  else if r = 0 then { value := 0, carry := false, zero := true }
  else if r < 0 then { value := BitVec.ofInt 8 (negWrap rule r), carry := true, zero := false }
  else { value := BitVec.ofInt 8 r, carry := false, zero := false }

/-- carry and zero written together, from scratch (41_arithmetic R151). -/
def State.setFlags (s : State) (carry zero : Bool) : State :=
  { s with carry := carry, zero := zero }

/-- The commit of ADD, SUB, INC and DEC: the destination, both flags and the pc (41_arithmetic R151,
R154). -/
def State.commitArith (s : State) (rd : Reg) (raw : Int) (length : Nat) : State :=
  let n := normalizeRaw s.config.negWrap raw
  ((s.setReg rd n.value).setFlags n.carry n.zero).advance length

/-- The commit of CMP: the flags and the pc, the value discarded (41_arithmetic R155). -/
def State.commitCompare (s : State) (raw : Int) (length : Nat) : State :=
  let n := normalizeRaw s.config.negWrap raw
  (s.setFlags n.carry n.zero).advance length

/-- The fault flag: the same bit as `state == Faulted` (10_state R29, R30). -/
def State.faultFlag (s : State) : Bool :=
  decide (s.status = .faulted)

/-- The byte FLAGS = fault<<2 | zero<<1 | carry of the observation port (10_state R33). -/
def State.flagsByte (s : State) : Byte :=
  BitVec.ofNat 8 (s.faultFlag.toNat * 4 + s.zero.toNat * 2 + s.carry.toNat)

end Sys2Proof.Machine
end

