-- ==== Sys2Proof/Machine/Operands.lean ====
section
/-! DEFINITION. Every operand form of the spec: the four source shapes of the two-operand families
(30_encoding R87 to R90), jump targets (R92), the values PUSH takes (R93), and the stack primitives
and taken jump they feed (44_stack R270, R280, 43_control R230). Register checks come before any read
(40_execution R126, R127). -/

namespace Sys2Proof.Machine

/-- Shape REG: `RegCheck(d); RegCheck(s); src = x[s]` (30_encoding R87). -/
def operandReg (d r : Nibble) (s : State) : Except FaultRecord (Reg × Byte) := do
  let rd ← regCheck d.toNat
  let rs ← regCheck r.toNat
  return (rd, s.getReg rs)

/-- Shape REGADDR: `RegCheck(d); RegCheck(s); src = MemRead(x[s], 1)` (30_encoding R88). -/
def operandRegaddr (d r : Nibble) (s : State) : Except FaultRecord (Reg × Byte) := do
  let rd ← regCheck d.toNat
  let rs ← regCheck r.toNat
  let v ← s.memRead (s.getReg rs).toNat
  return (rd, v)

/-- Shape NUM: `RegCheck(d); src = byte2` (30_encoding R90). -/
def operandNum (d n : Byte) : Except FaultRecord (Reg × Byte) := do
  let rd ← regCheck d.toNat
  return (rd, n)

/-- Shape ADDR: `RegCheck(d); src = MemRead(byte2, 1)`, one dereference (30_encoding R89, R91). -/
def operandAddr (d a : Byte) (s : State) : Except FaultRecord (Reg × Byte) := do
  let rd ← regCheck d.toNat
  let v ← s.memRead a.toNat
  return (rd, v)

/-- The sole register of format R and its value: INC, DEC, PUSH and the register jumps
(30_encoding R85, R92, R93). -/
def operandSole (r : Byte) (s : State) : Except FaultRecord (Reg × Byte) := do
  let rr ← regCheck r.toNat
  return (rr, s.getReg rr)

/-- TakeJump(target) (43_control R230). -/
def State.takeJump (s : State) (target : Byte) : Except FaultRecord State :=
  if target.toNat < s.config.memSize then .ok (s.setPc target.toNat)
  else .error (.addressFault target.toNat)

/-- A jump on a condition: taken as the unconditional form, or a fall through that looks at no target
(43_control R231). -/
def State.jumpIf (s : State) (condition : Bool) (target : Byte) : Except FaultRecord State :=
  if condition then s.takeJump target else .ok (s.advance 2)

/-- Push(v): write at SP, then decrement SP (44_stack R270). -/
def State.push (s : State) (v : Byte) : Except FaultRecord State := do
  let t ← s.memWrite s.sp v
  return t.setSp (s.sp - 1)

/-- Pop(r) after its register check: increment SP, read at the new SP, write the register
(44_stack R280). -/
def State.pop (s : State) (rd : Reg) : Except FaultRecord State := do
  let v ← s.memRead (s.sp + 1)
  return (s.setReg rd v).setSp (s.sp + 1)

end Sys2Proof.Machine
end

