-- ==== Sys2Proof/Machine/Arith.lean ====
section
/-! DEFINITION. ADD, SUB and CMP in four shapes each, INC and DEC (41_arithmetic R160 to
R176). Raw results are unbounded integers (00_scope R12). -/

namespace Sys2Proof.Machine

/-- ADD_REG_TO_REG (R160). -/
def execAddRegToReg (d r : Nibble) (s : State) : Host.Outcome State Fault Refusal :=
  conclude s do
    let (rd, v) ← operandReg d r s
    return s.commitArith rd (((s.getReg rd).toNat : Int) + (v.toNat : Int)) 2

/-- ADD_REGADDR_TO_REG (R161). -/
def execAddRegaddrToReg (d r : Nibble) (s : State) : Host.Outcome State Fault Refusal :=
  conclude s do
    let (rd, v) ← operandRegaddr d r s
    return s.commitArith rd (((s.getReg rd).toNat : Int) + (v.toNat : Int)) 2

/-- ADD_NUM_TO_REG (R162). -/
def execAddNumToReg (d n : Byte) (s : State) : Host.Outcome State Fault Refusal :=
  conclude s do
    let (rd, v) ← operandNum d n
    return s.commitArith rd (((s.getReg rd).toNat : Int) + (v.toNat : Int)) 3

/-- ADD_ADDR_TO_REG (R163). -/
def execAddAddrToReg (d a : Byte) (s : State) : Host.Outcome State Fault Refusal :=
  conclude s do
    let (rd, v) ← operandAddr d a s
    return s.commitArith rd (((s.getReg rd).toNat : Int) + (v.toNat : Int)) 3

/-- SUB_REG_FROM_REG (R165). -/
def execSubRegFromReg (d r : Nibble) (s : State) : Host.Outcome State Fault Refusal :=
  conclude s do
    let (rd, v) ← operandReg d r s
    return s.commitArith rd (((s.getReg rd).toNat : Int) - (v.toNat : Int)) 2

/-- SUB_REGADDR_FROM_REG (R166). -/
def execSubRegaddrFromReg (d r : Nibble) (s : State) : Host.Outcome State Fault Refusal :=
  conclude s do
    let (rd, v) ← operandRegaddr d r s
    return s.commitArith rd (((s.getReg rd).toNat : Int) - (v.toNat : Int)) 2

/-- SUB_NUM_FROM_REG (R167). -/
def execSubNumFromReg (d n : Byte) (s : State) : Host.Outcome State Fault Refusal :=
  conclude s do
    let (rd, v) ← operandNum d n
    return s.commitArith rd (((s.getReg rd).toNat : Int) - (v.toNat : Int)) 3

/-- SUB_ADDR_FROM_REG (R168). -/
def execSubAddrFromReg (d a : Byte) (s : State) : Host.Outcome State Fault Refusal :=
  conclude s do
    let (rd, v) ← operandAddr d a s
    return s.commitArith rd (((s.getReg rd).toNat : Int) - (v.toNat : Int)) 3

/-- CMP_REG_WITH_REG (R170). -/
def execCmpRegWithReg (d r : Nibble) (s : State) : Host.Outcome State Fault Refusal :=
  conclude s do
    let (rd, v) ← operandReg d r s
    return s.commitCompare (((s.getReg rd).toNat : Int) - (v.toNat : Int)) 2

/-- CMP_REGADDR_WITH_REG (R171). -/
def execCmpRegaddrWithReg (d r : Nibble) (s : State) : Host.Outcome State Fault Refusal :=
  conclude s do
    let (rd, v) ← operandRegaddr d r s
    return s.commitCompare (((s.getReg rd).toNat : Int) - (v.toNat : Int)) 2

/-- CMP_NUM_WITH_REG (R172). -/
def execCmpNumWithReg (d n : Byte) (s : State) : Host.Outcome State Fault Refusal :=
  conclude s do
    let (rd, v) ← operandNum d n
    return s.commitCompare (((s.getReg rd).toNat : Int) - (v.toNat : Int)) 3

/-- CMP_ADDR_WITH_REG (R173). -/
def execCmpAddrWithReg (d a : Byte) (s : State) : Host.Outcome State Fault Refusal :=
  conclude s do
    let (rd, v) ← operandAddr d a s
    return s.commitCompare (((s.getReg rd).toNat : Int) - (v.toNat : Int)) 3

/-- INC_REG (R175, R154). -/
def execIncReg (r : Byte) (s : State) : Host.Outcome State Fault Refusal :=
  conclude s do
    let (rd, v) ← operandSole r s
    return s.commitArith rd ((v.toNat : Int) + 1) 2

/-- DEC_REG (R176, R154). -/
def execDecReg (r : Byte) (s : State) : Host.Outcome State Fault Refusal :=
  conclude s do
    let (rd, v) ← operandSole r s
    return s.commitArith rd ((v.toNat : Int) - 1) 2

end Sys2Proof.Machine
end

