-- ==== Sys2Proof/Machine/Control.lean ====
section
/-! DEFINITION. The ten jump forms (43_control R235 to R244). The flags tested are those at the
start of the tick (40_execution R132); no jump writes anything but the pc (R232). -/

namespace Sys2Proof.Machine

/-- JMP_REG (R235). -/
def execJmpReg (r : Byte) (s : State) : Host.Outcome State Fault Refusal :=
  conclude s do
    let (_, v) ← operandSole r s
    s.takeJump v

/-- JMP_ADDR (R236). -/
def execJmpAddr (a : Byte) (s : State) : Host.Outcome State Fault Refusal :=
  conclude s (s.takeJump a)

/-- JC_REG (R237). -/
def execJcReg (r : Byte) (s : State) : Host.Outcome State Fault Refusal :=
  conclude s do
    let (_, v) ← operandSole r s
    s.jumpIf s.carry v

/-- JC_ADDR (R238). -/
def execJcAddr (a : Byte) (s : State) : Host.Outcome State Fault Refusal :=
  conclude s (s.jumpIf s.carry a)

/-- JNC_REG (R239). -/
def execJncReg (r : Byte) (s : State) : Host.Outcome State Fault Refusal :=
  conclude s do
    let (_, v) ← operandSole r s
    s.jumpIf (!s.carry) v

/-- JNC_ADDR (R240). -/
def execJncAddr (a : Byte) (s : State) : Host.Outcome State Fault Refusal :=
  conclude s (s.jumpIf (!s.carry) a)

/-- JZ_REG (R241). -/
def execJzReg (r : Byte) (s : State) : Host.Outcome State Fault Refusal :=
  conclude s do
    let (_, v) ← operandSole r s
    s.jumpIf s.zero v

/-- JZ_ADDR (R242). -/
def execJzAddr (a : Byte) (s : State) : Host.Outcome State Fault Refusal :=
  conclude s (s.jumpIf s.zero a)

/-- JNZ_REG (R243). -/
def execJnzReg (r : Byte) (s : State) : Host.Outcome State Fault Refusal :=
  conclude s do
    let (_, v) ← operandSole r s
    s.jumpIf (!s.zero) v

/-- JNZ_ADDR (R244). -/
def execJnzAddr (a : Byte) (s : State) : Host.Outcome State Fault Refusal :=
  conclude s (s.jumpIf (!s.zero) a)

end Sys2Proof.Machine
end

