-- ==== Sys2Proof/Machine/Move.lean ====
section
/-! DEFINITION. The four MOV forms (42_move R200 to R203). No flag is written. -/

namespace Sys2Proof.Machine

/-- MOV_REG_TO_REG (R200). -/
def execMovRegToReg (d r : Nibble) (s : State) : Host.Outcome State Fault Refusal :=
  conclude s do
    let (rd, v) ← operandReg d r s
    return (s.setReg rd v).advance 2

/-- MOV_REGADDR_TO_REG (R201). -/
def execMovRegaddrToReg (d r : Nibble) (s : State) : Host.Outcome State Fault Refusal :=
  conclude s do
    let (rd, v) ← operandRegaddr d r s
    return (s.setReg rd v).advance 2

/-- MOV_NUM_TO_REG (R202). -/
def execMovNumToReg (d n : Byte) (s : State) : Host.Outcome State Fault Refusal :=
  conclude s do
    let (rd, v) ← operandNum d n
    return (s.setReg rd v).advance 3

/-- MOV_ADDR_TO_REG (R203). -/
def execMovAddrToReg (d a : Byte) (s : State) : Host.Outcome State Fault Refusal :=
  conclude s do
    let (rd, v) ← operandAddr d a s
    return (s.setReg rd v).advance 3

end Sys2Proof.Machine
end

