-- ==== Sys2Proof/Machine/Stack.lean ====
section
/-! DEFINITION. The four PUSH forms and POP (44_stack R271 to R281). No flag is written. PUSH makes
its data read before its write is checked (40_execution R126). -/

namespace Sys2Proof.Machine

/-- PUSH_REG (R271). -/
def execPushReg (r : Byte) (s : State) : Host.Outcome State Fault Refusal :=
  conclude s do
    let (_, v) ← operandSole r s
    let t ← s.push v
    return t.advance 2

/-- PUSH_REGADDR (R272). -/
def execPushRegaddr (r : Byte) (s : State) : Host.Outcome State Fault Refusal :=
  conclude s do
    let (_, p) ← operandSole r s
    let v ← s.memRead p.toNat
    let t ← s.push v
    return t.advance 2

/-- PUSH_ADDR (R273): one read at the address byte. -/
def execPushAddr (a : Byte) (s : State) : Host.Outcome State Fault Refusal :=
  conclude s do
    let v ← s.memRead a.toNat
    let t ← s.push v
    return t.advance 2

/-- PUSH_NUM (R274). -/
def execPushNum (n : Byte) (s : State) : Host.Outcome State Fault Refusal :=
  conclude s do
    let t ← s.push n
    return t.advance 2

/-- POP_REG (R281). -/
def execPopReg (r : Byte) (s : State) : Host.Outcome State Fault Refusal :=
  conclude s do
    let rd ← regCheck r.toNat
    let t ← s.pop rd
    return t.advance 2

end Sys2Proof.Machine
end

