-- ==== Sys2Proof/Machine/System.lean ====
section
/-! DEFINITION. STOP (45_stop R300). -/

namespace Sys2Proof.Machine

/-- STOP (R300): `state <- Halted`, the pc not advanced. -/
def execStop (s : State) : Host.Outcome State Fault Refusal :=
  .next s.halt

end Sys2Proof.Machine
end

