-- ==== Sys2Proof/Machine/Dispatch.lean ====
section
/-! DEFINITION. One arm per constructor of Instr, each a direct call of its meaning. What `exec` gives
is the instruction's own phases 3 to 7 (40_execution R126), its bytes already fetched; the machine
state is looked at by `tick` alone (log entry 9). -/

namespace Sys2Proof.Machine

def exec (i : Instr) (s : State) : Host.Outcome State Fault Refusal :=
  match i with
  | .stop => Sys2Proof.Machine.execStop s
  | .movRegToReg d r => Sys2Proof.Machine.execMovRegToReg d r s
  | .movRegaddrToReg d r => Sys2Proof.Machine.execMovRegaddrToReg d r s
  | .movNumToReg d n => Sys2Proof.Machine.execMovNumToReg d n s
  | .movAddrToReg d a => Sys2Proof.Machine.execMovAddrToReg d a s
  | .addRegToReg d r => Sys2Proof.Machine.execAddRegToReg d r s
  | .addRegaddrToReg d r => Sys2Proof.Machine.execAddRegaddrToReg d r s
  | .addNumToReg d n => Sys2Proof.Machine.execAddNumToReg d n s
  | .addAddrToReg d a => Sys2Proof.Machine.execAddAddrToReg d a s
  | .subRegFromReg d r => Sys2Proof.Machine.execSubRegFromReg d r s
  | .subRegaddrFromReg d r => Sys2Proof.Machine.execSubRegaddrFromReg d r s
  | .subNumFromReg d n => Sys2Proof.Machine.execSubNumFromReg d n s
  | .subAddrFromReg d a => Sys2Proof.Machine.execSubAddrFromReg d a s
  | .cmpRegWithReg d r => Sys2Proof.Machine.execCmpRegWithReg d r s
  | .cmpRegaddrWithReg d r => Sys2Proof.Machine.execCmpRegaddrWithReg d r s
  | .cmpNumWithReg d n => Sys2Proof.Machine.execCmpNumWithReg d n s
  | .cmpAddrWithReg d a => Sys2Proof.Machine.execCmpAddrWithReg d a s
  | .incReg r => Sys2Proof.Machine.execIncReg r s
  | .decReg r => Sys2Proof.Machine.execDecReg r s
  | .jmpReg r => Sys2Proof.Machine.execJmpReg r s
  | .jmpAddr a => Sys2Proof.Machine.execJmpAddr a s
  | .jcReg r => Sys2Proof.Machine.execJcReg r s
  | .jcAddr a => Sys2Proof.Machine.execJcAddr a s
  | .jncReg r => Sys2Proof.Machine.execJncReg r s
  | .jncAddr a => Sys2Proof.Machine.execJncAddr a s
  | .jzReg r => Sys2Proof.Machine.execJzReg r s
  | .jzAddr a => Sys2Proof.Machine.execJzAddr a s
  | .jnzReg r => Sys2Proof.Machine.execJnzReg r s
  | .jnzAddr a => Sys2Proof.Machine.execJnzAddr a s
  | .pushReg r => Sys2Proof.Machine.execPushReg r s
  | .pushRegaddr r => Sys2Proof.Machine.execPushRegaddr r s
  | .pushAddr a => Sys2Proof.Machine.execPushAddr a s
  | .pushNum n => Sys2Proof.Machine.execPushNum n s
  | .popReg r => Sys2Proof.Machine.execPopReg r s

end Sys2Proof.Machine
end

