-- ==== Sys2Proof/Machine/Tick.lean ====
section
/-! DEFINITION. Fetching an instruction, the tick procedure, and the placing of an instruction's bytes
where the next tick fetches (40_execution R120 to R125). -/

namespace Sys2Proof.Machine

/-- Phase 2 of a format with one operand byte (40_execution R123). -/
def fetchOne (s : State) (o : Opcode) : Except FaultRecord Instr := do
  let b1 ← s.memRead (s.pc + 1 : Nat)
  return o.assemble b1 0

/-- Phase 2 of a format with two operand bytes, at rising addresses (40_execution R123). -/
def fetchTwo (s : State) (o : Opcode) : Except FaultRecord Instr := do
  let b1 ← s.memRead (s.pc + 1 : Nat)
  let b2 ← s.memRead (s.pc + 2 : Nat)
  return o.assemble b1 b2

/-- Phases 1 and 2 (40_execution R123, R124, R126): the opcode byte first and alone, then the operand
bytes the opcode's format has. -/
def fetch (s : State) : Except FaultRecord Instr := do
  let op ← s.memRead s.pc
  match s.config.opcodeMap.opcodeOf op with
  | none => .error (.unknownOpcodeFault op)
  | some o =>
    match o.format with
    | .n => return o.assemble 0 0
    | .p => fetchOne s o
    | .rb => fetchTwo s o
    | .r => fetchOne s o
    | .b => fetchOne s o

/-- One tick (40_execution R120): the Faulted, Halted and IP >= N checks in that order, then one
instruction, fetched and run. A fault of the fetch is taken as one of the instruction. -/
def tick (s : State) : Host.Outcome State Fault Refusal :=
  match s.status with
  | .faulted => .fault (.stickyFault s.faultInfo)
  | .halted => .next s
  | .ready =>
    if s.config.memSize ≤ s.pc then .next s.halt
    else
      match fetch s with
      | .error f => .next (s.takeFault f)
      | .ok i => exec i s

/-- A state whose next tick runs the instruction with the given bytes: the bytes stand from IP upward,
in the cells below N, and the machine is Ready with no fault recorded. DESIGN CHOICE: it stands for
the loader, which runs on a Ready machine (log entry 4). -/
def State.placeAtPc (s : State) (bytes : List Byte) : State :=
  { s with mem := Memory.load s.config.memSize s.mem s.pc bytes, status := .ready, faultInfo := none }

end Sys2Proof.Machine
end

