-- ==== Sys2Proof/Machine/Step.lean ====
section
/-! DEFINITION. The step of the machine: one tick. -/

namespace Sys2Proof.Machine

/-- One step is one tick (40_execution R120). -/
def step (s : State) : Host.Outcome State Fault Refusal :=
  tick s

/-- The state with an instruction of the opcode table stored where the next step fetches. -/
def State.withFetchWord (s : State) (nbits w : Nat) : State :=
  s.placeAtPc (tableBytes nbits w)

end Sys2Proof.Machine
end

