-- ==== Sys2Proof/Machine/Ports.lean ====
section
/-! DEFINITION. The host's interfaces beside the tick and reset: the answer of a tick (10_state R38),
the loader port (R40) and the observation port (R33, R41, 60_exceptions R310). -/

namespace Sys2Proof.Machine

/-- The answers of the tick interface (10_state R38). A Fault answer carries FAULT_INFO. -/
inductive Response where
  | continue
  | halted
  | fault (record : Option FaultRecord)
  | stickyFault (record : Option FaultRecord)
  deriving DecidableEq, Repr

/-- The answer of a tick, read from what the step gives (10_state R38). -/
def tickResponse : Host.Outcome State Fault Refusal → Option Response
  | .next t =>
    match t.status with
    | .ready => some .continue
    | .halted => some .halted
    | .faulted => some (.fault t.faultInfo)
  | .fault (.stickyFault record) => some (.stickyFault record)
  | .refused _ => none

/-- Why the loader port refuses (10_state R40, 60_exceptions R316). It is an answer to the host and no
fault of the core; R40 names no address for a refused bulk load, so the request itself is given:
DESIGN CHOICE, safe (log entry 6). -/
inductive LoaderRefusal where
  | addressFault (a : Int)
  | loadAddressFault (a : Int) (length : Nat)
  deriving DecidableEq, Repr

/-- `clamp(v) = min(max(v, 0), 255)` (10_state R40). -/
def clampByte (v : Int) : Byte :=
  BitVec.ofInt 8 (min (max v 0) 255)

/-- Loader port, `write(addr, v)` (10_state R40). -/
def State.loaderWrite (s : State) (a v : Int) : Except LoaderRefusal State :=
  if a < 0 ∨ (s.config.memSize : Int) ≤ a then .error (.addressFault a)
  else .ok { s with mem := s.mem.write a.toNat (clampByte v) }

/-- Loader port, `bulk_load(addr, bytes)`: all of the bytes or none (10_state R40). -/
def State.bulkLoad (s : State) (a : Int) (bytes : List Byte) : Except LoaderRefusal State :=
  if a < 0 ∨ (s.config.memSize : Int) < a + bytes.length then
    .error (.loadAddressFault a bytes.length)
  else .ok { s with mem := Memory.load s.config.memSize s.mem a.toNat bytes }

/-- Observation port: a general register by index, none where no such register is (10_state R41). -/
def State.observeRegister (s : State) (i : Nat) : Option Byte :=
  (regOfIndex i).map s.getReg

/-- Observation port: a memory cell, none outside 0..N-1 (10_state R41). -/
def State.observeMemory (s : State) (a : Nat) : Option Byte :=
  if a < s.config.memSize then some (s.mem.read a) else none

/-- The numeric code of a fault kind (60_exceptions R310). -/
def FaultRecord.code : FaultRecord → Nat
  | .addressFault _ => 1
  | .registerFault _ => 2
  | .unknownOpcodeFault _ => 3

/-- The info of a fault as one integer: the address, the index or the opcode byte (60_exceptions
R310). -/
def FaultRecord.info : FaultRecord → Int
  | .addressFault a => a
  | .registerFault i => i
  | .unknownOpcodeFault op => op.toNat

/-- Observation port: the code of the stored fault record, 0 for none (60_exceptions R310). -/
def State.faultCode (s : State) : Nat :=
  match s.faultInfo with
  | none => 0
  | some f => f.code

/-- The code of an answer of the tick interface, where R310 gives it one: 1 to 3 for a fault of this
tick, 4 for StickyFault. -/
def Response.code : Response → Option Nat
  | .fault (some f) => some f.code
  | .stickyFault _ => some 4
  | _ => none

end Sys2Proof.Machine
end

