-- ==== Sys2Proof/Safety.lean ====
section
/-! DEFINITION. What counts as a good state and a launched machine, in the terms the statements use. -/

namespace Sys2Proof.Machine

/-- A recorded fault is one the machine can raise: an address -1 or N and above, an index 4..255, or
a byte the opcode map does not assign (60_exceptions R310 to R313). -/
def FaultRecord.valid (c : Config) : FaultRecord → Bool
  | .addressFault a => decide (a = -1) || decide ((c.memSize : Int) ≤ a)
  | .registerFault i => decide (4 ≤ i) && decide (i ≤ 255)
  | .unknownOpcodeFault op => (c.opcodeMap.opcodeOf op).isNone

/-- The invariant of the machine between ticks. States outside it are never reached (log entry 7). -/
structure State.Inv (s : State) : Prop where
  /-- The parameters are legal (00_scope R9, 70_reset R355). -/
  config_legal : s.config.legal = true
  /-- Memory is in canonical form. -/
  mem_wf : s.mem.wf = true
  /-- Only M[0..N-1] are listed (10_state R34). -/
  mem_below : Memory.below s.config.memSize s.mem = true
  /-- IP lies in 0..N (10_state R24). -/
  pc_le : s.pc ≤ s.config.memSize
  /-- SP lies in -1..N-1 (10_state R27). -/
  sp_ge : -1 ≤ s.sp
  sp_lt : s.sp < s.config.memSize
  /-- carry and zero are never both true (41_arithmetic R152). -/
  flags_exclusive : (s.carry && s.zero) = false
  /-- There is a fault record exactly when the machine is Faulted (10_state R30, R31). -/
  faulted_iff : s.status = .faulted ↔ s.faultInfo.isSome = true
  /-- The record is of a fault the machine can raise. -/
  record_valid : ∀ f, s.faultInfo = some f → f.valid s.config = true
  /-- A Faulted machine's IP holds the address of the faulting opcode (60_exceptions R314). -/
  faulted_pc : s.status = .faulted → s.pc < s.config.memSize
  /-- A Halted machine stands at a STOP or past the end of memory (40_execution R121). -/
  halted_at : s.status = .halted → s.config.memSize ≤ s.pc ∨
    s.config.opcodeMap.opcodeOf (s.mem.read s.pc) = some .stop

/-- A machine just launched: reset, then a program loaded at address 0 (70_reset R354, R356). -/
def Launched (c : Config) (program : List Byte) (s : State) : Prop :=
  (State.resetWith c).bulkLoad 0 program = .ok s

end Sys2Proof.Machine
end

