-- ==== Sys2Proof/Certificates/Slice0/Obligations.lean ====
section
/-! DEFINITION. The statements for the provers. The namespace Claims holds the words they are written
in: the effects of the instructions as the spec's rules give them, in plain arithmetic, without the
model's own operand, flag and fault operations. -/

namespace Sys2Proof.Claims

open Sys2Proof.Machine

/-! ## Words -/

/-- The register of an index 0..3 (10_state R20). Asked of such an index only. -/
def regNamed (i : Nat) : Reg :=
  match i with
  | 0 => .A
  | 1 => .B
  | 2 => .C
  | _ => .D

/-- x[i]. -/
def x (s : State) (i : Nat) : Byte := s.regs.get (regNamed i)

/-- M[a]. -/
def cell (s : State) (a : Nat) : Byte := s.mem.read a

/-- A fault taken: the state Faulted, the record written, nothing else changed (40_execution R130). -/
def faulted (s : State) (f : FaultRecord) : State :=
  { s with status := .faulted, faultInfo := some f }

/-- The machine is Ready under the default opcode map, and IP is at an opcode byte `op`. -/
def At (op : Byte) (s : State) : Prop :=
  s.status = .ready ∧ s.config.opcodeMap = OpcodeMap.default ∧ s.pc < s.config.memSize ∧ cell s s.pc = op

/-! ## Effects -/

/-- x[d] <- v; pc <- pc + len. -/
def movTo (s : State) (d : Nat) (v : Byte) (len : Nat) : State :=
  { s with regs := s.regs.set (regNamed d) v, pc := s.pc + len }

/-- The ADD row of 41_arithmetic R153, with y the other operand. -/
def addTo (s : State) (d y len : Nat) : State :=
  let r := (x s d).toNat + y
  { s with
    regs := s.regs.set (regNamed d) (BitVec.ofNat 8 (if r ≤ 255 then r else r - 256))
    carry := decide (256 ≤ r)
    zero := decide (r = 0)
    pc := s.pc + len }

/-- The value of a difference of two bytes under either NEG_WRAP_RULE (41_arithmetic R153). -/
def difference (rule : NegWrapRule) (p q : Nat) : Byte :=
  BitVec.ofNat 8 (if q ≤ p then p - q else
    match rule with
    | .docFormula => 255 - (q - p)
    | .mod256 => 256 - (q - p))

/-- The SUB row of 41_arithmetic R153. -/
def subFrom (s : State) (d y len : Nat) : State :=
  { s with
    regs := s.regs.set (regNamed d) (difference s.config.negWrap (x s d).toNat y)
    carry := decide ((x s d).toNat < y)
    zero := decide ((x s d).toNat = y)
    pc := s.pc + len }

/-- CMP: the flags of the difference, no register written (41_arithmetic R155, R170). -/
def compareWith (s : State) (d y len : Nat) : State :=
  { s with
    carry := decide ((x s d).toNat < y)
    zero := decide ((x s d).toNat = y)
    pc := s.pc + len }

/-- A jump on a condition: TakeJump(target), or pc + 2 with no target looked at (43_control R230,
R231). -/
def jumpOn (s : State) (condition : Bool) (target : Byte) : State :=
  if condition then
    if target.toNat < s.config.memSize then { s with pc := target.toNat }
    else faulted s (.addressFault target.toNat)
  else { s with pc := s.pc + 2 }

/-- Push(v); pc <- pc + 2 (44_stack R270). -/
def pushed (s : State) (v : Byte) : State :=
  if s.sp < 0 ∨ (s.config.memSize : Int) ≤ s.sp then faulted s (.addressFault s.sp)
  else { s with mem := s.mem.write s.sp.toNat v, sp := s.sp - 1, pc := s.pc + 2 }

/-- Pop(r); pc <- pc + 2, after the register check (44_stack R280). -/
def popped (s : State) (i : Nat) : State :=
  if s.sp + 1 < 0 ∨ (s.config.memSize : Int) ≤ s.sp + 1 then faulted s (.addressFault (s.sp + 1))
  else { s with
    regs := s.regs.set (regNamed i) (cell s (s.sp + 1).toNat)
    sp := s.sp + 1
    pc := s.pc + 2 }

/-- What happens with the byte at an address, or AddressFault at N and above (20_memory R52). -/
def reading (s : State) (a : Nat) (k : Byte → State) : State :=
  if a < s.config.memSize then k (cell s a) else faulted s (.addressFault a)

/-! ## One tick from the bytes in memory, by format -/

/-- One tick of a format P instruction: AddressFault(pc+1) past the end, RegisterFault of the high
nibble, then of the low nibble, then the effect. -/
def TickP (op : Byte) (effect : State → Nat → Nat → State) : Prop :=
  ∀ s : State, At op s → step s = .next (
    if s.config.memSize ≤ s.pc + 1 then faulted s (.addressFault (s.pc + 1 : Nat))
    else
      let d := (cell s (s.pc + 1)).toNat / 16
      let r := (cell s (s.pc + 1)).toNat % 16
      if 3 < d then faulted s (.registerFault d)
      else if 3 < r then faulted s (.registerFault r)
      else effect s d r)

/-- One tick of a format RB instruction: AddressFault(pc+1), AddressFault(pc+2), RegisterFault of
byte 1, then the effect of byte 1 and byte 2. -/
def TickRB (op : Byte) (effect : State → Nat → Byte → State) : Prop :=
  ∀ s : State, At op s → step s = .next (
    if s.config.memSize ≤ s.pc + 1 then faulted s (.addressFault (s.pc + 1 : Nat))
    else if s.config.memSize ≤ s.pc + 2 then faulted s (.addressFault (s.pc + 2 : Nat))
    else
      let d := (cell s (s.pc + 1)).toNat
      if 3 < d then faulted s (.registerFault d)
      else effect s d (cell s (s.pc + 2)))

/-- One tick of a format R instruction. -/
def TickR (op : Byte) (effect : State → Nat → State) : Prop :=
  ∀ s : State, At op s → step s = .next (
    if s.config.memSize ≤ s.pc + 1 then faulted s (.addressFault (s.pc + 1 : Nat))
    else
      let r := (cell s (s.pc + 1)).toNat
      if 3 < r then faulted s (.registerFault r) else effect s r)

/-- One tick of a format B instruction. -/
def TickB (op : Byte) (effect : State → Byte → State) : Prop :=
  ∀ s : State, At op s → step s = .next (
    if s.config.memSize ≤ s.pc + 1 then faulted s (.addressFault (s.pc + 1 : Nat))
    else effect s (cell s (s.pc + 1)))

/-! ## Groups of instructions -/

/-- The destination index of a MOV form. -/
def movDest : Instr → Option Nat
  | .movRegToReg d _ => some d.toNat
  | .movRegaddrToReg d _ => some d.toNat
  | .movNumToReg d _ => some d.toNat
  | .movAddrToReg d _ => some d.toNat
  | _ => none

/-- The destination index of ADD, SUB, INC and DEC in every form. -/
def arithDest : Instr → Option Nat
  | .addRegToReg d _ => some d.toNat
  | .addRegaddrToReg d _ => some d.toNat
  | .addNumToReg d _ => some d.toNat
  | .addAddrToReg d _ => some d.toNat
  | .subRegFromReg d _ => some d.toNat
  | .subRegaddrFromReg d _ => some d.toNat
  | .subNumFromReg d _ => some d.toNat
  | .subAddrFromReg d _ => some d.toNat
  | .incReg r => some r.toNat
  | .decReg r => some r.toNat
  | _ => none

/-- CMP in every form. -/
def isCmp : Instr → Bool
  | .cmpRegWithReg _ _ => true
  | .cmpRegaddrWithReg _ _ => true
  | .cmpNumWithReg _ _ => true
  | .cmpAddrWithReg _ _ => true
  | _ => false

/-- PUSH in every form. -/
def isPush : Instr → Bool
  | .pushReg _ => true
  | .pushRegaddr _ => true
  | .pushAddr _ => true
  | .pushNum _ => true
  | _ => false

/-- The index of the register POP writes. -/
def popDest : Instr → Option Nat
  | .popReg r => some r.toNat
  | _ => none

/-- The condition of a jump form in a state: true for JMP, none for an instruction that is no jump. -/
def jumpCondition (s : State) : Instr → Option Bool
  | .jmpReg _ => some true
  | .jmpAddr _ => some true
  | .jcReg _ => some s.carry
  | .jcAddr _ => some s.carry
  | .jncReg _ => some (!s.carry)
  | .jncAddr _ => some (!s.carry)
  | .jzReg _ => some s.zero
  | .jzAddr _ => some s.zero
  | .jnzReg _ => some (!s.zero)
  | .jnzAddr _ => some (!s.zero)
  | _ => none

/-- The target of a jump form (30_encoding R92). -/
def jumpTarget (s : State) : Instr → Nat
  | .jmpReg r => (x s r.toNat).toNat
  | .jcReg r => (x s r.toNat).toNat
  | .jncReg r => (x s r.toNat).toNat
  | .jzReg r => (x s r.toNat).toNat
  | .jnzReg r => (x s r.toNat).toNat
  | .jmpAddr a => a.toNat
  | .jcAddr a => a.toNat
  | .jncAddr a => a.toNat
  | .jzAddr a => a.toNat
  | .jnzAddr a => a.toNat
  | _ => 0

/-- What every frame says of the machine state and the fault record: they are as before, or a fault was
taken and nothing else changed. -/
def FaultFrame (s t : State) : Prop :=
  (t.status = s.status ∧ t.faultInfo = s.faultInfo) ∨ ∃ f, t = faulted s f

/-- Every byte of memory reads as before. -/
def SameMemory (s t : State) : Prop :=
  ∀ a, cell t a = cell s a

/-! ## The fault an instruction meets first -/

/-- The address of the data read of an opcode with operand bytes b1 and b2, if it makes one
(60_exceptions R311 b, c). -/
def dataAddress (s : State) (o : Opcode) (b1 b2 : Byte) : Option Nat :=
  match o with
  | .movRegaddrToReg => some (x s (b1.toNat % 16)).toNat
  | .addRegaddrToReg => some (x s (b1.toNat % 16)).toNat
  | .subRegaddrFromReg => some (x s (b1.toNat % 16)).toNat
  | .cmpRegaddrWithReg => some (x s (b1.toNat % 16)).toNat
  | .pushRegaddr => some (x s b1.toNat).toNat
  | .movAddrToReg => some b2.toNat
  | .addAddrToReg => some b2.toNat
  | .subAddrFromReg => some b2.toNat
  | .cmpAddrWithReg => some b2.toNat
  | .pushAddr => some b1.toNat
  | _ => none

/-- The address an opcode checks last, if it checks one: the target of a taken jump, SP for a PUSH,
SP + 1 for a POP (60_exceptions R311 d, e, f). -/
def finalAddress (s : State) (o : Opcode) (b1 : Byte) : Option Int :=
  let target : Option Int := some (b1.toNat : Int)
  let regTarget : Option Int := some ((x s b1.toNat).toNat : Int)
  match o with
  | .jmpReg => regTarget
  | .jmpAddr => target
  | .jcReg => if s.carry then regTarget else none
  | .jcAddr => if s.carry then target else none
  | .jncReg => if s.carry then none else regTarget
  | .jncAddr => if s.carry then none else target
  | .jzReg => if s.zero then regTarget else none
  | .jzAddr => if s.zero then target else none
  | .jnzReg => if s.zero then none else regTarget
  | .jnzAddr => if s.zero then none else target
  | .pushReg => some s.sp
  | .pushRegaddr => some s.sp
  | .pushAddr => some s.sp
  | .pushNum => some s.sp
  | .popReg => some (s.sp + 1)
  | _ => none

/-- The register fields of a format, in the order they are checked. -/
def fieldsOf (f : InstrFormat) (b1 : Byte) : List Nat :=
  match f with
  | .p => [b1.toNat / 16, b1.toNat % 16]
  | .rb => [b1.toNat]
  | .r => [b1.toNat]
  | .n => []
  | .b => []

/-- The list of 60_exceptions R320 from its second line on: the first fault condition that the
instruction at IP meets, if any. -/
def firstFault (s : State) : Option FaultRecord :=
  let op := cell s s.pc
  match s.config.opcodeMap.opcodeOf op with
  | none => some (.unknownOpcodeFault op)
  | some o =>
    let b1 := cell s (s.pc + 1)
    let b2 := cell s (s.pc + 2)
    if 2 ≤ o.length ∧ s.config.memSize ≤ s.pc + 1 then some (.addressFault (s.pc + 1 : Nat))
    else if 3 ≤ o.length ∧ s.config.memSize ≤ s.pc + 2 then some (.addressFault (s.pc + 2 : Nat))
    else
      match (fieldsOf o.format b1).find? fun k => decide (3 < k) with
      | some k => some (.registerFault k)
      | none =>
        match (dataAddress s o b1 b2).filter fun a => decide (s.config.memSize ≤ a) with
        | some a => some (.addressFault a)
        | none =>
          ((finalAddress s o b1).filter fun a => decide (a < 0) || decide ((s.config.memSize : Int) ≤ a)).map
            FaultRecord.addressFault

end Sys2Proof.Claims

open Sys2Proof Sys2Proof.Machine Sys2Proof.Claims

/-! ## Reset, launch, invariants -/

/-- 10_state R36, 70_reset R350: what reset leaves, in a machine with any parameters and from any
state; and State.reset is the default machine after it (log entry 2 names the defaults). -/
def Obligations.ResetState : Prop :=
  (∀ s : State, (∀ q, s.applyReset.regs.get q = 0) ∧ s.applyReset.pc = 0 ∧
    s.applyReset.sp = s.config.spInit ∧ s.applyReset.carry = false ∧ s.applyReset.zero = false ∧
    s.applyReset.faultFlag = false ∧ s.applyReset.status = .ready ∧ s.applyReset.faultInfo = none ∧
    (∀ a, a < s.config.memSize → cell s.applyReset a = 0) ∧ s.applyReset.config = s.config) ∧
  State.reset.config = Config.default ∧ State.reset = State.reset.applyReset ∧ State.reset.sp = 0xE8

/-- 70_reset R352: reset clears memory, so a tick after a reset with no load runs STOP at address 0
under the default opcode map. -/
def Obligations.ResetThenTick : Prop :=
  ∀ s : State, 1 ≤ s.config.memSize → s.config.opcodeMap = OpcodeMap.default →
    (∀ a, cell s.applyReset a = 0) ∧ step s.applyReset = .next { s.applyReset with status := .halted }

/-- The invariant holds after reset for all legal parameters, and the default ones are legal. -/
def Obligations.InvAtReset : Prop :=
  (∀ c : Config, c.legal = true → (State.resetWith c).Inv) ∧ Config.default.legal = true ∧
    State.reset.Inv

/-- Every tick keeps the invariant, from every state that has it: IP stays in 0..N, SP in -1..N-1,
carry and zero never both hold, memory stays canonical and inside N, a record is there exactly when
Faulted and is of a fault the machine can raise. -/
def Obligations.StepKeepsInv : Prop :=
  ∀ s t : State, s.Inv → step s = .next t → t.Inv

/-- Every program that fits, loaded at 0 after reset under any legal parameters, runs inside the
invariant for ever. -/
def Obligations.LaunchedRunsKeepInv : Prop :=
  ∀ (c : Config) (program : List Byte) (s t : State) (k : Nat), c.legal = true →
    Launched c program s → Sys2Proof.core.run k s = .next t → t.Inv

/-- The host's other operations keep the invariant: reset from any state that has it, and on a Ready
machine, as before the first tick after a reset (10_state R42, 70_reset R354), any accepted write or
bulk_load of the loader port, which also leaves the machine Ready. -/
def Obligations.HostOperationsKeepInv : Prop :=
  ∀ s : State, s.Inv →
    s.applyReset.Inv ∧
    (s.status = .ready → ∀ (a v : Int) (t : State), s.loaderWrite a v = .ok t →
      t.Inv ∧ t.status = .ready) ∧
    (s.status = .ready → ∀ (a : Int) (bytes : List Byte) (t : State), s.bulkLoad a bytes = .ok t →
      t.Inv ∧ t.status = .ready)

/-- 70_reset section 2: the launch state of a program of at most N bytes. -/
def Obligations.LaunchState : Prop :=
  ∀ (c : Config) (program : List Byte), program.length ≤ c.memSize →
    ∃ s, Launched c program s ∧ s.config = c ∧ s.status = .ready ∧ s.faultInfo = none ∧
      s.carry = false ∧ s.zero = false ∧ (∀ q, s.regs.get q = 0) ∧ s.pc = 0 ∧ s.sp = c.spInit ∧
      (∀ (k : Nat) (h : k < program.length), cell s k = program[k]) ∧
      ∀ a, program.length ≤ a → cell s a = 0

/-- 00_scope R10: the ranges of IP and SP fit registers of IPW and SPW bits, which are the smallest
that hold them, and both are 9 bits for N = 256. -/
def Obligations.PointerWidths : Prop :=
  (∀ s : State, s.Inv →
    s.pc < 2 ^ s.config.ipWidth ∧ -(2 ^ (s.config.spWidth - 1) : Int) ≤ s.sp ∧
      s.sp < (2 ^ (s.config.spWidth - 1) : Int)) ∧
  (∀ c : Config, 1 ≤ c.memSize →
    1 ≤ c.ipWidth ∧ 2 ^ (c.ipWidth - 1) ≤ c.memSize ∧ 1 ≤ c.spWidth ∧
      (2 ≤ c.spWidth → 2 ^ (c.spWidth - 2) ≤ c.memSize - 1)) ∧
  Config.default.ipWidth = 9 ∧ Config.default.spWidth = 9

/-! ## Memory and the loader port -/

/-- 20_memory R54: a read after a write gives the byte written (and every other address reads as
before); outside 0..N-1 both raise AddressFault; the loader stores 255 for every larger value. -/
def Obligations.MemoryLaws : Prop :=
  ∀ (s : State) (a : Int),
    (0 ≤ a → a < s.config.memSize → ∀ v : Byte, ∃ t, s.memWrite a v = .ok t ∧ t.memRead a = .ok v ∧
      ∀ b, b ≠ a → t.memRead b = s.memRead b) ∧
    (a < 0 ∨ (s.config.memSize : Int) ≤ a → s.memRead a = .error (.addressFault a) ∧
      ∀ v, s.memWrite a v = .error (.addressFault a)) ∧
    (0 ≤ a → a < s.config.memSize → ∀ v : Int, 255 < v →
      ∃ t, s.loaderWrite a v = .ok t ∧ t.memRead a = .ok 255)

/-- 10_state section 9 (R40): the loader port's two operations. A refusal hands back no state, so it
changes nothing. That a refused bulk_load carries its address and length is the model's choice
(DESIGN CHOICE, log entry 6): the spec names no address there. -/
def Obligations.LoaderPort : Prop :=
  ∀ (s : State) (a : Int),
    (∀ v : Int, a < 0 ∨ (s.config.memSize : Int) ≤ a → s.loaderWrite a v = .error (.addressFault a)) ∧
    (∀ v : Int, 0 ≤ a → a < s.config.memSize → ∃ m, s.loaderWrite a v = .ok { s with mem := m } ∧
      ((m.read a.toNat).toNat : Int) = min (max v 0) 255 ∧
      ∀ b, b ≠ a.toNat → m.read b = cell s b) ∧
    (∀ bytes : List Byte, a < 0 ∨ (s.config.memSize : Int) < a + bytes.length →
      s.bulkLoad a bytes = .error (.loadAddressFault a bytes.length)) ∧
    (∀ bytes : List Byte, 0 ≤ a → a + bytes.length ≤ s.config.memSize →
      ∃ m, s.bulkLoad a bytes = .ok { s with mem := m } ∧
        (∀ (k : Nat) (h : k < bytes.length), m.read (a.toNat + k) = bytes[k]) ∧
        ∀ b, b < a.toNat ∨ a.toNat + bytes.length ≤ b → m.read b = cell s b)

/-! ## Arithmetic -/

/-- 41_arithmetic R150: Normalize, branch by branch, its value as a number 0..255. -/
def Obligations.NormalizeRule : Prop :=
  ∀ (rule : NegWrapRule) (r : Int),
    (256 ≤ r → (normalizeRaw rule r).carry = true ∧ (normalizeRaw rule r).zero = false ∧
      ((normalizeRaw rule r).value.toNat : Int) = r % 256) ∧
    (r = 0 → normalizeRaw rule r = { value := 0, carry := false, zero := true }) ∧
    (r < 0 → (normalizeRaw rule r).carry = true ∧ (normalizeRaw rule r).zero = false ∧
      ((normalizeRaw rule r).value.toNat : Int) =
        match rule with
        | .docFormula => 255 - (-r) % 256
        | .mod256 => r % 256) ∧
    (1 ≤ r → r ≤ 255 → (normalizeRaw rule r).carry = false ∧ (normalizeRaw rule r).zero = false ∧
      ((normalizeRaw rule r).value.toNat : Int) = r)

/-- 41_arithmetic R152: carry and zero are never both true; zero is a raw result of exactly 0; 256 and,
under DOC_FORMULA, -255 wrap to 0 with carry and without zero; under MOD256 no raw result -255..-1
wraps to 0. -/
def Obligations.FlagLaws : Prop :=
  (∀ rule r, ((normalizeRaw rule r).carry && (normalizeRaw rule r).zero) = false ∧
    ((normalizeRaw rule r).zero = true ↔ r = 0)) ∧
  (∀ rule, normalizeRaw rule 256 = { value := 0, carry := true, zero := false }) ∧
  normalizeRaw .docFormula (-255) = { value := 0, carry := true, zero := false } ∧
  ∀ r : Int, -255 ≤ r → r ≤ -1 → (normalizeRaw .mod256 r).value ≠ 0

/-- 41_arithmetic R153: the integer laws of ADD, SUB and CMP, INC and DEC on two bytes, their ranges,
values and flags, under both rules. -/
def Obligations.IntegerLaws : Prop :=
  ∀ (rule : NegWrapRule) (p q : Byte),
    let add := normalizeRaw rule ((p.toNat : Int) + q.toNat)
    let sub := normalizeRaw rule ((p.toNat : Int) - q.toNat)
    let inc := normalizeRaw rule ((p.toNat : Int) + 1)
    let dec := normalizeRaw rule ((p.toNat : Int) - 1)
    (p.toNat + q.toNat ≤ 510 ∧
      add.value.toNat = (if p.toNat + q.toNat ≤ 255 then p.toNat + q.toNat else p.toNat + q.toNat - 256) ∧
      add.carry = decide (256 ≤ p.toNat + q.toNat) ∧ add.zero = decide (p.toNat + q.toNat = 0)) ∧
    (-255 ≤ (p.toNat : Int) - q.toNat ∧ (p.toNat : Int) - q.toNat ≤ 255 ∧
      sub.value = difference rule p.toNat q.toNat ∧
      sub.carry = decide (p.toNat < q.toNat) ∧ sub.zero = decide (p.toNat = q.toNat)) ∧
    (1 ≤ p.toNat + 1 ∧ p.toNat + 1 ≤ 256 ∧
      inc.value.toNat = (if p.toNat = 255 then 0 else p.toNat + 1) ∧
      inc.carry = decide (p.toNat = 255) ∧ inc.zero = false) ∧
    (-1 ≤ (p.toNat : Int) - 1 ∧ (p.toNat : Int) - 1 ≤ 254 ∧
      dec.value.toNat = (if p.toNat = 0 then (match rule with | .docFormula => 254 | .mod256 => 255)
        else p.toNat - 1) ∧
      dec.carry = decide (p.toNat = 0) ∧ dec.zero = decide (p.toNat = 1))

/-- 41_arithmetic section 1 (flags from scratch): an ADD, SUB, CMP, INC or DEC that completes gives the
same state whatever carry and zero were, and one that faults leaves both as they were. -/
def Obligations.NoFlagCarriedOver : Prop :=
  ∀ (i : Instr) (s t : State), ((arithDest i).isSome || isCmp i) = true → s.status = .ready →
    exec i s = .next t →
    (t.status = .ready → ∀ c z, exec i { s with carry := c, zero := z } = .next t) ∧
    (t.status = .faulted → t.carry = s.carry ∧ t.zero = s.zero)

/-- 41_arithmetic R154: INC and DEC are ADD and SUB by the constant 1, but for their length of 2; and
decrementing 0 sets carry. -/
def Obligations.IncDecAreAddSubOne : Prop :=
  ∀ (r : Byte) (s : State), r.toNat ≤ 3 →
    (∃ t, exec (.incReg r) s = .next { t with pc := s.pc + 2 } ∧ exec (.addNumToReg r 1) s = .next t) ∧
    (∃ t, exec (.decReg r) s = .next { t with pc := s.pc + 2 } ∧ exec (.subNumFromReg r 1) s = .next t) ∧
    (x s r.toNat = 0 → ∃ t, exec (.decReg r) s = .next t ∧ t.carry = true)

/-- 41_arithmetic R155: in every shape CMP is SUB without the writeback, faults included. -/
def Obligations.CmpIsSubWithoutWriteback : Prop :=
  ∀ s : State,
    (∀ d r, ∃ t, exec (.subRegFromReg d r) s = .next t ∧
      exec (.cmpRegWithReg d r) s = .next { t with regs := s.regs }) ∧
    (∀ d r, ∃ t, exec (.subRegaddrFromReg d r) s = .next t ∧
      exec (.cmpRegaddrWithReg d r) s = .next { t with regs := s.regs }) ∧
    (∀ d n, ∃ t, exec (.subNumFromReg d n) s = .next t ∧
      exec (.cmpNumWithReg d n) s = .next { t with regs := s.regs }) ∧
    (∀ d a, ∃ t, exec (.subAddrFromReg d a) s = .next t ∧
      exec (.cmpAddrWithReg d a) s = .next { t with regs := s.regs })

/-! ## One tick of every instruction, from its bytes in memory -/

/-- 42_move R200 to R203: the four MOV forms, encoding, effect and faults. -/
def Obligations.MovTick : Prop :=
  TickP 0x01 (fun s d r => movTo s d (x s r) 2) ∧
  TickP 0x02 (fun s d r => reading s (x s r).toNat fun v => movTo s d v 2) ∧
  TickRB 0x03 (fun s d n => movTo s d n 3) ∧
  TickRB 0x04 (fun s d a => reading s a.toNat fun v => movTo s d v 3)

/-- 41_arithmetic R160 to R163: the four ADD forms. -/
def Obligations.AddTick : Prop :=
  TickP 0x05 (fun s d r => addTo s d (x s r).toNat 2) ∧
  TickP 0x06 (fun s d r => reading s (x s r).toNat fun v => addTo s d v.toNat 2) ∧
  TickRB 0x07 (fun s d n => addTo s d n.toNat 3) ∧
  TickRB 0x08 (fun s d a => reading s a.toNat fun v => addTo s d v.toNat 3)

/-- 41_arithmetic R165 to R168: the four SUB forms. -/
def Obligations.SubTick : Prop :=
  TickP 0x09 (fun s d r => subFrom s d (x s r).toNat 2) ∧
  TickP 0x0A (fun s d r => reading s (x s r).toNat fun v => subFrom s d v.toNat 2) ∧
  TickRB 0x0B (fun s d n => subFrom s d n.toNat 3) ∧
  TickRB 0x0C (fun s d a => reading s a.toNat fun v => subFrom s d v.toNat 3)

/-- 41_arithmetic R170 to R173: the four CMP forms. -/
def Obligations.CmpTick : Prop :=
  TickP 0x0D (fun s d r => compareWith s d (x s r).toNat 2) ∧
  TickP 0x0E (fun s d r => reading s (x s r).toNat fun v => compareWith s d v.toNat 2) ∧
  TickRB 0x0F (fun s d n => compareWith s d n.toNat 3) ∧
  TickRB 0x10 (fun s d a => reading s a.toNat fun v => compareWith s d v.toNat 3)

/-- 41_arithmetic R175 and R176: INC and DEC. -/
def Obligations.IncDecTick : Prop :=
  TickR 0x11 (fun s r => addTo s r 1 2) ∧ TickR 0x12 (fun s r => subFrom s r 1 2)

/-- 43_control R235 and R236: JMP. -/
def Obligations.JmpTick : Prop :=
  TickR 0x13 (fun s r => jumpOn s true (x s r)) ∧ TickB 0x14 (fun s a => jumpOn s true a)

/-- 43_control R237 to R240: JC and JNC. -/
def Obligations.JcTick : Prop :=
  TickR 0x15 (fun s r => jumpOn s s.carry (x s r)) ∧ TickB 0x16 (fun s a => jumpOn s s.carry a) ∧
  TickR 0x17 (fun s r => jumpOn s (!s.carry) (x s r)) ∧ TickB 0x18 (fun s a => jumpOn s (!s.carry) a)

/-- 43_control R241 to R244: JZ and JNZ. -/
def Obligations.JzTick : Prop :=
  TickR 0x19 (fun s r => jumpOn s s.zero (x s r)) ∧ TickB 0x1A (fun s a => jumpOn s s.zero a) ∧
  TickR 0x1B (fun s r => jumpOn s (!s.zero) (x s r)) ∧ TickB 0x1C (fun s a => jumpOn s (!s.zero) a)

/-- 44_stack R270 to R274: the four PUSH forms, their data read before the check of SP. -/
def Obligations.PushTick : Prop :=
  TickR 0x1D (fun s r => pushed s (x s r)) ∧
  TickR 0x1E (fun s r => reading s (x s r).toNat fun v => pushed s v) ∧
  TickB 0x1F (fun s a => reading s a.toNat fun v => pushed s v) ∧
  TickB 0x20 (fun s n => pushed s n)

/-- 44_stack R280 and R281: POP. -/
def Obligations.PopTick : Prop :=
  TickR 0x21 (fun s r => popped s r)

/-- 45_stop R300: STOP halts, moves no pc, writes no flag, and the tick answers Halted. -/
def Obligations.StopTick : Prop :=
  ∀ s : State, At 0x00 s → step s = .next { s with status := .halted } ∧
    tickResponse (step s) = some .halted

/-! ## Every instruction completes: its own effect, under conditions on the state and operands alone -/

/-- 42_move: every MOV form on registers 0..3 and a readable address. -/
def Obligations.MovCompletes : Prop :=
  ∀ s : State,
    (∀ d r : Nibble, d.toNat ≤ 3 → r.toNat ≤ 3 →
      exec (.movRegToReg d r) s = .next (movTo s d.toNat (x s r.toNat) 2)) ∧
    (∀ d r : Nibble, d.toNat ≤ 3 → r.toNat ≤ 3 → (x s r.toNat).toNat < s.config.memSize →
      exec (.movRegaddrToReg d r) s = .next (movTo s d.toNat (cell s (x s r.toNat).toNat) 2)) ∧
    (∀ d n : Byte, d.toNat ≤ 3 → exec (.movNumToReg d n) s = .next (movTo s d.toNat n 3)) ∧
    (∀ d a : Byte, d.toNat ≤ 3 → a.toNat < s.config.memSize →
      exec (.movAddrToReg d a) s = .next (movTo s d.toNat (cell s a.toNat) 3))

/-- 41_arithmetic section 2: every ADD form. -/
def Obligations.AddCompletes : Prop :=
  ∀ s : State,
    (∀ d r : Nibble, d.toNat ≤ 3 → r.toNat ≤ 3 →
      exec (.addRegToReg d r) s = .next (addTo s d.toNat (x s r.toNat).toNat 2)) ∧
    (∀ d r : Nibble, d.toNat ≤ 3 → r.toNat ≤ 3 → (x s r.toNat).toNat < s.config.memSize →
      exec (.addRegaddrToReg d r) s = .next (addTo s d.toNat (cell s (x s r.toNat).toNat).toNat 2)) ∧
    (∀ d n : Byte, d.toNat ≤ 3 → exec (.addNumToReg d n) s = .next (addTo s d.toNat n.toNat 3)) ∧
    (∀ d a : Byte, d.toNat ≤ 3 → a.toNat < s.config.memSize →
      exec (.addAddrToReg d a) s = .next (addTo s d.toNat (cell s a.toNat).toNat 3))

/-- 41_arithmetic section 3: every SUB form. -/
def Obligations.SubCompletes : Prop :=
  ∀ s : State,
    (∀ d r : Nibble, d.toNat ≤ 3 → r.toNat ≤ 3 →
      exec (.subRegFromReg d r) s = .next (subFrom s d.toNat (x s r.toNat).toNat 2)) ∧
    (∀ d r : Nibble, d.toNat ≤ 3 → r.toNat ≤ 3 → (x s r.toNat).toNat < s.config.memSize →
      exec (.subRegaddrFromReg d r) s =
        .next (subFrom s d.toNat (cell s (x s r.toNat).toNat).toNat 2)) ∧
    (∀ d n : Byte, d.toNat ≤ 3 → exec (.subNumFromReg d n) s = .next (subFrom s d.toNat n.toNat 3)) ∧
    (∀ d a : Byte, d.toNat ≤ 3 → a.toNat < s.config.memSize →
      exec (.subAddrFromReg d a) s = .next (subFrom s d.toNat (cell s a.toNat).toNat 3))

/-- 41_arithmetic section 4: every CMP form. -/
def Obligations.CmpCompletes : Prop :=
  ∀ s : State,
    (∀ d r : Nibble, d.toNat ≤ 3 → r.toNat ≤ 3 →
      exec (.cmpRegWithReg d r) s = .next (compareWith s d.toNat (x s r.toNat).toNat 2)) ∧
    (∀ d r : Nibble, d.toNat ≤ 3 → r.toNat ≤ 3 → (x s r.toNat).toNat < s.config.memSize →
      exec (.cmpRegaddrWithReg d r) s =
        .next (compareWith s d.toNat (cell s (x s r.toNat).toNat).toNat 2)) ∧
    (∀ d n : Byte, d.toNat ≤ 3 →
      exec (.cmpNumWithReg d n) s = .next (compareWith s d.toNat n.toNat 3)) ∧
    (∀ d a : Byte, d.toNat ≤ 3 → a.toNat < s.config.memSize →
      exec (.cmpAddrWithReg d a) s = .next (compareWith s d.toNat (cell s a.toNat).toNat 3))

/-- 41_arithmetic section 5: INC and DEC. -/
def Obligations.IncDecCompletes : Prop :=
  ∀ (s : State) (r : Byte), r.toNat ≤ 3 →
    exec (.incReg r) s = .next (addTo s r.toNat 1 2) ∧
    exec (.decReg r) s = .next (subFrom s r.toNat 1 2)

/-- 43_control, 45_stop: every jump, taken to a target below N or not taken whatever the target; and
STOP. -/
def Obligations.ControlCompletes : Prop :=
  ∀ s : State,
    (∀ i, jumpCondition s i = some true → i.wellFormed = true → jumpTarget s i < s.config.memSize →
      exec i s = .next { s with pc := jumpTarget s i }) ∧
    (∀ i, jumpCondition s i = some false → i.wellFormed = true →
      exec i s = .next { s with pc := s.pc + 2 }) ∧
    exec .stop s = .next { s with status := .halted }

/-- 44_stack: every PUSH form with SP in 0..N-1, and POP with SP + 1 in 0..N-1. -/
def Obligations.StackCompletes : Prop :=
  ∀ s : State,
    (0 ≤ s.sp → s.sp < s.config.memSize →
      let stored := fun v : Byte =>
        { s with mem := s.mem.write s.sp.toNat v, sp := s.sp - 1, pc := s.pc + 2 }
      (∀ r : Byte, r.toNat ≤ 3 → exec (.pushReg r) s = .next (stored (x s r.toNat))) ∧
      (∀ r : Byte, r.toNat ≤ 3 → (x s r.toNat).toNat < s.config.memSize →
        exec (.pushRegaddr r) s = .next (stored (cell s (x s r.toNat).toNat))) ∧
      (∀ a : Byte, a.toNat < s.config.memSize → exec (.pushAddr a) s = .next (stored (cell s a.toNat))) ∧
      (∀ n : Byte, exec (.pushNum n) s = .next (stored n))) ∧
    (∀ r : Byte, r.toNat ≤ 3 → 0 ≤ s.sp + 1 → s.sp + 1 < s.config.memSize →
      exec (.popReg r) s = .next { s with
        regs := s.regs.set (regNamed r.toNat) (cell s (s.sp + 1).toNat)
        sp := s.sp + 1
        pc := s.pc + 2 })

/-- 44_stack R281's corner case: PUSH then POP copies the register and restores SP; no other register
and no flag changes. -/
def Obligations.PushPopInverse : Prop :=
  ∀ (s : State) (r q : Byte), r.toNat ≤ 3 → q.toNat ≤ 3 → 0 ≤ s.sp → s.sp < s.config.memSize →
    ∃ t u, exec (.pushReg r) s = .next t ∧ exec (.popReg q) t = .next u ∧ u.sp = s.sp ∧
      x u q.toNat = x s r.toNat ∧
      (∀ k, regNamed q.toNat ≠ k → u.regs.get k = s.regs.get k) ∧ u.carry = s.carry ∧ u.zero = s.zero

/-! ## Jumps -/

/-- 43_control R231: on a match a conditional form does exactly what the unconditional form does; on a
mismatch it goes to pc + 2 whatever the target; the register form's check is made either way. -/
def Obligations.ConditionalJumps : Prop :=
  ∀ (s : State) (b : Byte),
    let cases : List (Bool × Instr × Instr) :=
      [(s.carry, .jcReg b, .jcAddr b), (!s.carry, .jncReg b, .jncAddr b),
       (s.zero, .jzReg b, .jzAddr b), (!s.zero, .jnzReg b, .jnzAddr b)]
    ∀ c ∈ cases,
      (c.1 = true → exec c.2.1 s = exec (.jmpReg b) s ∧ exec c.2.2 s = exec (.jmpAddr b) s) ∧
      (c.1 = false → exec c.2.2 s = .next { s with pc := s.pc + 2 } ∧
        (b.toNat ≤ 3 → exec c.2.1 s = .next { s with pc := s.pc + 2 })) ∧
      (3 < b.toNat → exec c.2.1 s = .next (faulted s (.registerFault b.toNat)))

/-! ## Frames -/

/-- Frame of MOV, all four forms. -/
def Obligations.FrameMove : Prop :=
  ∀ (i : Instr) (d : Nat) (s t : State), movDest i = some d → exec i s = .next t →
    (∀ q, regNamed d ≠ q → t.regs.get q = s.regs.get q) ∧ t.carry = s.carry ∧ t.zero = s.zero ∧
    t.sp = s.sp ∧ SameMemory s t ∧ t.config = s.config ∧ FaultFrame s t

/-- Frame of ADD, SUB, INC and DEC, all forms: also carry and zero may change. -/
def Obligations.FrameArith : Prop :=
  ∀ (i : Instr) (d : Nat) (s t : State), arithDest i = some d → exec i s = .next t →
    (∀ q, regNamed d ≠ q → t.regs.get q = s.regs.get q) ∧
    t.sp = s.sp ∧ SameMemory s t ∧ t.config = s.config ∧ FaultFrame s t

/-- Frame of CMP, all four forms: no register is written. -/
def Obligations.FrameCompare : Prop :=
  ∀ (i : Instr) (s t : State), isCmp i = true → exec i s = .next t →
    (∀ q, t.regs.get q = s.regs.get q) ∧
    t.sp = s.sp ∧ SameMemory s t ∧ t.config = s.config ∧ FaultFrame s t

/-- 43_control R232, and the frame of the ten jumps: no jump writes carry, zero, a register, memory or
SP; the flags tested are those of `s`: an unmet condition goes past the operand byte, a met one to the
target (or a fault). -/
def Obligations.FrameJump : Prop :=
  ∀ (i : Instr) (c : Bool) (s t : State), jumpCondition s i = some c → exec i s = .next t →
    (∀ q, t.regs.get q = s.regs.get q) ∧ t.carry = s.carry ∧ t.zero = s.zero ∧
    t.sp = s.sp ∧ SameMemory s t ∧ t.config = s.config ∧ FaultFrame s t ∧
    (c = false → i.wellFormed = true → t.pc = s.pc + 2) ∧
    (c = true → t.pc = jumpTarget s i ∨ ∃ f, t = faulted s f)

/-- Frame of PUSH, all four forms: the one byte stored to is at SP as it was before. -/
def Obligations.FramePush : Prop :=
  ∀ (i : Instr) (s t : State), isPush i = true → exec i s = .next t →
    (∀ q, t.regs.get q = s.regs.get q) ∧ t.carry = s.carry ∧ t.zero = s.zero ∧
    (t.sp = s.sp ∨ t.sp = s.sp - 1) ∧
    (∀ a : Nat, s.sp = a → ∀ b, b ≠ a → cell t b = cell s b) ∧
    (s.sp < 0 ∨ (s.config.memSize : Int) ≤ s.sp → SameMemory s t) ∧ t.config = s.config ∧ FaultFrame s t

/-- Frame of POP: the register it names and SP may change. -/
def Obligations.FramePop : Prop :=
  ∀ (i : Instr) (d : Nat) (s t : State), popDest i = some d → exec i s = .next t →
    (∀ q, regNamed d ≠ q → t.regs.get q = s.regs.get q) ∧ t.carry = s.carry ∧ t.zero = s.zero ∧
    (t.sp = s.sp ∨ t.sp = s.sp + 1) ∧ SameMemory s t ∧ t.config = s.config ∧ FaultFrame s t

/-- 10_state sections 3 and 4, 20_memory section 1, over whole ticks: a flag changes only by ADD, SUB,
CMP, INC or DEC; a byte of memory only by PUSH, and only the one at SP; SP only by PUSH or POP; the
parameters never. -/
def Obligations.WhoWritesWhat : Prop :=
  ∀ s t : State, step s = .next t →
    (t.carry ≠ s.carry ∨ t.zero ≠ s.zero →
      ∃ i, fetch s = .ok i ∧ ((arithDest i).isSome || isCmp i) = true) ∧
    (∀ a, cell t a ≠ cell s a → ∃ i, fetch s = .ok i ∧ isPush i = true ∧ s.sp = a) ∧
    (t.sp ≠ s.sp → ∃ i, fetch s = .ok i ∧
      ((isPush i = true ∧ t.sp = s.sp - 1) ∨ ((popDest i).isSome = true ∧ t.sp = s.sp + 1))) ∧
    t.config = s.config

/-! ## The instruction pointer -/

/-- 10_state R25: where IP is after an instruction completes without a fault; it never wraps or passes
N, and at exactly N the next tick reports Halted; an instruction whose bytes would extend past N-1
raises AddressFault(N). -/
def Obligations.PcAfterInstruction : Prop :=
  ∀ s : State, s.status = .ready → s.pc < s.config.memSize →
    (∀ (t : State) (i : Instr), fetch s = .ok i → step s = .next t → t.status ≠ .faulted →
      (i = .stop → t.pc = s.pc) ∧
      (i ≠ .stop → jumpCondition s i = none → t.pc = s.pc + i.length) ∧
      (jumpCondition s i = some false → t.pc = s.pc + i.length) ∧
      (jumpCondition s i = some true → t.pc = jumpTarget s i ∧ t.pc < s.config.memSize) ∧
      t.pc ≤ s.config.memSize ∧
      (t.pc = s.config.memSize → t.status = .ready → tickResponse (step t) = some .halted)) ∧
    ∀ o : Opcode, s.config.opcodeMap.opcodeOf (cell s s.pc) = some o →
      s.config.memSize < s.pc + o.length →
      step s = .next (faulted s (.addressFault s.config.memSize))

/-! ## Faults, halts and the tick -/

/-- 60_exceptions R312: an instruction with a register field above 3 raises RegisterFault of the first
such field in check order, whatever the registers, the memory, the flags and its other operands are;
and a Ready machine's instruction with no such field raises no RegisterFault. -/
def Obligations.RegisterFaultFirst : Prop :=
  ∀ (i : Instr) (s : State),
    (∀ k, (i.registerFields.find? fun k => decide (3 < k)) = some k →
      exec i s = .next (faulted s (.registerFault k))) ∧
    (i.wellFormed = true → s.status = .ready → ∀ t k, exec i s = .next t →
      t.status = .faulted → t.faultInfo ≠ some (.registerFault k))

/-- 40_execution R130: a tick that raises a fault makes no architectural change but the machine state
and the record, and answers Fault with that record. -/
def Obligations.PreciseFault : Prop :=
  ∀ s t : State, s.status = .ready → step s = .next t → t.status = .faulted →
    ∃ f, t = { s with status := .faulted, faultInfo := some f } ∧ t.faultFlag = true ∧
      tickResponse (step s) = some (.fault (some f))

/-- 40_execution section 1 (R122): a Faulted machine answers StickyFault with the stored record, whatever
the memory holds. That the tick gives Outcome.fault, and no next state, is the model's choice (DESIGN
CHOICE, log entry 3). -/
def Obligations.StickyFault : Prop :=
  ∀ (s : State) (m : Memory), s.status = .faulted →
    step { s with mem := m } = .fault (.stickyFault s.faultInfo) ∧
    tickResponse (step s) = some (.stickyFault s.faultInfo)

/-- 40_execution R121: IP >= N reports Halted before any fetch and changes only the machine state; a
Halted machine answers Halted and changes nothing, as a tick of its own halting state would. -/
def Obligations.HaltChecks : Prop :=
  ∀ s : State,
    (s.status = .ready → s.config.memSize ≤ s.pc → ∀ m : Memory,
      step { s with mem := m } = .next { s with mem := m, status := .halted }) ∧
    (s.status = .halted → step s = .next s ∧ tickResponse (step s) = some .halted) ∧
    (s.status = .halted → s.Inv → step { s with status := .ready } = .next s)

/-- 30_encoding R96, 60_exceptions R313: an opcode byte the map does not assign raises
UnknownOpcodeFault with no operand byte read, at the last address of memory too; under the default map
these are 0x22..0xFF. -/
def Obligations.UnknownOpcode : Prop :=
  (∀ s : State, s.status = .ready → s.pc < s.config.memSize →
    s.config.opcodeMap.opcodeOf (cell s s.pc) = none →
    step s = .next (faulted s (.unknownOpcodeFault (cell s s.pc)))) ∧
  ∀ b : Byte, OpcodeMap.default.opcodeOf b = none ↔ 0x22 ≤ b.toNat

/-- 60_exceptions section 2 (R320): a tick reports the first fault of the list, and none if no line
applies. That the tick of a Faulted machine gives Outcome.fault is the model's choice (DESIGN CHOICE, log
entry 3). -/
def Obligations.FaultPriority : Prop :=
  ∀ s : State,
    (s.status = .faulted → step s = .fault (.stickyFault s.faultInfo)) ∧
    (s.status = .ready → s.pc < s.config.memSize →
      (∀ f, firstFault s = some f → step s = .next (faulted s f)) ∧
      (firstFault s = none → ∃ t, step s = .next t ∧ t.status ≠ .faulted))

/-- 20_memory section 3 and the last sentence of 60_exceptions R311: with 256 cells or more, an
instruction that is no PUSH and no POP raises no fault but RegisterFault once its bytes are fetched. -/
def Obligations.NoAddressFaultInFullMemory : Prop :=
  ∀ (i : Instr) (s t : State), 256 ≤ s.config.memSize → s.status = .ready →
    isPush i = false → popDest i = none → exec i s = .next t → t.status = .faulted →
    ∃ k, 3 < k ∧ t = faulted s (.registerFault k)

/-- 10_state R38: a tick gives exactly one of the four answers, and the state that goes with it; no tick
is refused. -/
def Obligations.TickAnswers : Prop :=
  ∀ s : State,
    (s.status = .faulted → tickResponse (step s) = some (.stickyFault s.faultInfo)) ∧
    (s.status = .halted → tickResponse (step s) = some .halted ∧ step s = .next s) ∧
    (s.status = .ready → ∃ t, step s = .next t ∧
      ((t.status = .ready ∧ tickResponse (step s) = some .continue) ∨
       (t.status = .halted ∧ tickResponse (step s) = some .halted) ∨
       (t.status = .faulted ∧ ∃ f, t.faultInfo = some f ∧
         tickResponse (step s) = some (.fault (some f)))))

/-- 40_execution section 2: when the bytes at IP decode to an instruction, a tick of a Ready machine is
exactly that instruction's exec at that state; nothing is done around it. -/
def Obligations.StepRunsDecoded : Prop :=
  ∀ (s : State) (bytes rest : List Byte) (i : Instr), s.status = .ready →
    s.pc + bytes.length ≤ s.config.memSize →
    (∀ (k : Nat) (h : k < bytes.length), cell s (s.pc + k) = bytes[k]) →
    decode s.config.opcodeMap bytes = .ok (i, rest) → step s = exec i s

/-- 20_memory section 4 (fetch sees every earlier write): a PUSH of a number does its whole work even
over its own bytes, and a byte it puts where IP goes next is the opcode of the next tick. -/
def Obligations.FetchCoherence : Prop :=
  ∀ s : State, At 0x20 s → s.pc + 1 < s.config.memSize → 0 ≤ s.sp → s.sp < s.config.memSize →
    ∃ t, step s = .next t ∧ cell t s.sp.toNat = cell s (s.pc + 1) ∧ t.pc = s.pc + 2 ∧
      (s.sp = (s.pc + 2 : Nat) → 0x22 ≤ (cell s (s.pc + 1)).toNat →
        step t = .next (faulted t (.unknownOpcodeFault (cell s (s.pc + 1)))))

/-! ## Encoding -/

/-- 30_encoding section 7 and the worked bytes of 95_test_vectors: one word of every family. -/
def Obligations.DecodeWords : Prop :=
  decode .default [0x05, 0x01] = .ok (.addRegToReg 0 1, []) ∧
  decode .default [0x03, 0x02, 0x03] = .ok (.movNumToReg 2 3, []) ∧
  decode .default [0x1C, 0x03] = .ok (.jnzAddr 3, []) ∧
  decode .default [0x00] = .ok (.stop, []) ∧
  decode .default [0x0A, 0x23] = .ok (.subRegaddrFromReg 2 3, []) ∧
  decode .default [0x10, 0x01, 0x05] = .ok (.cmpAddrWithReg 1 5, []) ∧
  decode .default [0x11, 0x01] = .ok (.incReg 1, []) ∧
  decode .default [0x20, 0x07] = .ok (.pushNum 7, []) ∧
  decode .default [0x21, 0x02] = .ok (.popReg 2, [])

/-- Decode of encode is the instruction, for every instruction with every operand value its fields
admit, under every legal opcode map, whatever bytes follow. -/
def Obligations.DecodeOfEncode : Prop :=
  ∀ (m : OpcodeMap) (i : Instr) (rest : List Byte), m.legal = true →
    decode m (encode m i ++ rest) = .ok (i, rest)

/-- Encode of decode is the bytes read: every word has one meaning and no bit is dropped. -/
def Obligations.EncodeOfDecode : Prop :=
  ∀ (m : OpcodeMap) (bytes rest : List Byte) (i : Instr), m.legal = true →
    decode m bytes = .ok (i, rest) → encode m i ++ rest = bytes

/-- 30_encoding R94: each of the 256 byte values is one of the 34 opcodes or an unknown opcode. -/
def Obligations.DecoderTotal : Prop :=
  Opcode.all.length = 34 ∧ ∀ b : Byte,
    (b.toNat < 34 ∧ ∃ o ∈ Opcode.all, OpcodeMap.default.opcodeOf b = some o ∧
      OpcodeMap.default.byteOf o = b) ∨
    (34 ≤ b.toNat ∧ OpcodeMap.default.opcodeOf b = none)

/-- 10_state R33, 60_exceptions R310: the FLAGS byte, bits 7..3 zero, and the numeric codes of the fault
kinds with the info each records. -/
def Obligations.ObservationCodes : Prop :=
  (∀ s : State, s.flagsByte.getLsbD 0 = s.carry ∧ s.flagsByte.getLsbD 1 = s.zero ∧
    s.flagsByte.getLsbD 2 = s.faultFlag ∧ s.flagsByte.toNat < 8 ∧
    (s.faultInfo = none → s.faultCode = 0) ∧ (∀ f, s.faultInfo = some f → s.faultCode = f.code)) ∧
  (∀ a, (FaultRecord.addressFault a).code = 1 ∧ (FaultRecord.addressFault a).info = a) ∧
  (∀ i, (FaultRecord.registerFault i).code = 2 ∧ (FaultRecord.registerFault i).info = i) ∧
  (∀ op, (FaultRecord.unknownOpcodeFault op).code = 3 ∧
    (FaultRecord.unknownOpcodeFault op).info = op.toNat) ∧
  (∀ s : State, s.status = .faulted → tickResponse (step s) = some (.stickyFault s.faultInfo) ∧
    (Response.stickyFault s.faultInfo).code = some 4)
end

