-- ==== Sys2Proof/Laws/State.lean ====
section
/-! SUPPORT. One lemma per field per update of State, each true by unfolding once, so that no later
proof unfolds a record update. -/

namespace Sys2Proof.Machine

@[simp] theorem State.setReg_config (s : State) (r : Reg) (v : Byte) : (s.setReg r v).config = s.config := rfl
@[simp] theorem State.setReg_regs (s : State) (r : Reg) (v : Byte) : (s.setReg r v).regs = s.regs.set r v := rfl
@[simp] theorem State.setReg_pc (s : State) (r : Reg) (v : Byte) : (s.setReg r v).pc = s.pc := rfl
@[simp] theorem State.setReg_sp (s : State) (r : Reg) (v : Byte) : (s.setReg r v).sp = s.sp := rfl
@[simp] theorem State.setReg_carry (s : State) (r : Reg) (v : Byte) : (s.setReg r v).carry = s.carry := rfl
@[simp] theorem State.setReg_zero (s : State) (r : Reg) (v : Byte) : (s.setReg r v).zero = s.zero := rfl
@[simp] theorem State.setReg_status (s : State) (r : Reg) (v : Byte) : (s.setReg r v).status = s.status := rfl
@[simp] theorem State.setReg_faultInfo (s : State) (r : Reg) (v : Byte) : (s.setReg r v).faultInfo = s.faultInfo := rfl
@[simp] theorem State.setReg_mem (s : State) (r : Reg) (v : Byte) : (s.setReg r v).mem = s.mem := rfl

@[simp] theorem State.setFlags_config (s : State) (c z : Bool) : (s.setFlags c z).config = s.config := rfl
@[simp] theorem State.setFlags_regs (s : State) (c z : Bool) : (s.setFlags c z).regs = s.regs := rfl
@[simp] theorem State.setFlags_pc (s : State) (c z : Bool) : (s.setFlags c z).pc = s.pc := rfl
@[simp] theorem State.setFlags_sp (s : State) (c z : Bool) : (s.setFlags c z).sp = s.sp := rfl
@[simp] theorem State.setFlags_carry (s : State) (c z : Bool) : (s.setFlags c z).carry = c := rfl
@[simp] theorem State.setFlags_zero (s : State) (c z : Bool) : (s.setFlags c z).zero = z := rfl
@[simp] theorem State.setFlags_status (s : State) (c z : Bool) : (s.setFlags c z).status = s.status := rfl
@[simp] theorem State.setFlags_faultInfo (s : State) (c z : Bool) : (s.setFlags c z).faultInfo = s.faultInfo := rfl
@[simp] theorem State.setFlags_mem (s : State) (c z : Bool) : (s.setFlags c z).mem = s.mem := rfl

@[simp] theorem State.setSp_config (s : State) (v : Int) : (s.setSp v).config = s.config := rfl
@[simp] theorem State.setSp_regs (s : State) (v : Int) : (s.setSp v).regs = s.regs := rfl
@[simp] theorem State.setSp_pc (s : State) (v : Int) : (s.setSp v).pc = s.pc := rfl
@[simp] theorem State.setSp_sp (s : State) (v : Int) : (s.setSp v).sp = v := rfl
@[simp] theorem State.setSp_carry (s : State) (v : Int) : (s.setSp v).carry = s.carry := rfl
@[simp] theorem State.setSp_zero (s : State) (v : Int) : (s.setSp v).zero = s.zero := rfl
@[simp] theorem State.setSp_status (s : State) (v : Int) : (s.setSp v).status = s.status := rfl
@[simp] theorem State.setSp_faultInfo (s : State) (v : Int) : (s.setSp v).faultInfo = s.faultInfo := rfl
@[simp] theorem State.setSp_mem (s : State) (v : Int) : (s.setSp v).mem = s.mem := rfl

@[simp] theorem State.advance_config (s : State) (n : Nat) : (s.advance n).config = s.config := rfl
@[simp] theorem State.advance_regs (s : State) (n : Nat) : (s.advance n).regs = s.regs := rfl
@[simp] theorem State.advance_pc (s : State) (n : Nat) : (s.advance n).pc = s.pc + n := rfl
@[simp] theorem State.advance_sp (s : State) (n : Nat) : (s.advance n).sp = s.sp := rfl
@[simp] theorem State.advance_carry (s : State) (n : Nat) : (s.advance n).carry = s.carry := rfl
@[simp] theorem State.advance_zero (s : State) (n : Nat) : (s.advance n).zero = s.zero := rfl
@[simp] theorem State.advance_status (s : State) (n : Nat) : (s.advance n).status = s.status := rfl
@[simp] theorem State.advance_faultInfo (s : State) (n : Nat) : (s.advance n).faultInfo = s.faultInfo := rfl
@[simp] theorem State.advance_mem (s : State) (n : Nat) : (s.advance n).mem = s.mem := rfl

@[simp] theorem State.setPc_config (s : State) (a : Nat) : (s.setPc a).config = s.config := rfl
@[simp] theorem State.setPc_regs (s : State) (a : Nat) : (s.setPc a).regs = s.regs := rfl
@[simp] theorem State.setPc_pc (s : State) (a : Nat) : (s.setPc a).pc = a := rfl
@[simp] theorem State.setPc_sp (s : State) (a : Nat) : (s.setPc a).sp = s.sp := rfl
@[simp] theorem State.setPc_carry (s : State) (a : Nat) : (s.setPc a).carry = s.carry := rfl
@[simp] theorem State.setPc_zero (s : State) (a : Nat) : (s.setPc a).zero = s.zero := rfl
@[simp] theorem State.setPc_status (s : State) (a : Nat) : (s.setPc a).status = s.status := rfl
@[simp] theorem State.setPc_faultInfo (s : State) (a : Nat) : (s.setPc a).faultInfo = s.faultInfo := rfl
@[simp] theorem State.setPc_mem (s : State) (a : Nat) : (s.setPc a).mem = s.mem := rfl

@[simp] theorem State.halt_config (s : State) : (s.halt).config = s.config := rfl
@[simp] theorem State.halt_regs (s : State) : (s.halt).regs = s.regs := rfl
@[simp] theorem State.halt_pc (s : State) : (s.halt).pc = s.pc := rfl
@[simp] theorem State.halt_sp (s : State) : (s.halt).sp = s.sp := rfl
@[simp] theorem State.halt_carry (s : State) : (s.halt).carry = s.carry := rfl
@[simp] theorem State.halt_zero (s : State) : (s.halt).zero = s.zero := rfl
@[simp] theorem State.halt_status (s : State) : (s.halt).status = .halted := rfl
@[simp] theorem State.halt_faultInfo (s : State) : (s.halt).faultInfo = s.faultInfo := rfl
@[simp] theorem State.halt_mem (s : State) : (s.halt).mem = s.mem := rfl

@[simp] theorem State.takeFault_config (s : State) (f : FaultRecord) : (s.takeFault f).config = s.config := rfl
@[simp] theorem State.takeFault_regs (s : State) (f : FaultRecord) : (s.takeFault f).regs = s.regs := rfl
@[simp] theorem State.takeFault_pc (s : State) (f : FaultRecord) : (s.takeFault f).pc = s.pc := rfl
@[simp] theorem State.takeFault_sp (s : State) (f : FaultRecord) : (s.takeFault f).sp = s.sp := rfl
@[simp] theorem State.takeFault_carry (s : State) (f : FaultRecord) : (s.takeFault f).carry = s.carry := rfl
@[simp] theorem State.takeFault_zero (s : State) (f : FaultRecord) : (s.takeFault f).zero = s.zero := rfl
@[simp] theorem State.takeFault_status (s : State) (f : FaultRecord) : (s.takeFault f).status = .faulted := rfl
@[simp] theorem State.takeFault_faultInfo (s : State) (f : FaultRecord) : (s.takeFault f).faultInfo = some f := rfl
@[simp] theorem State.takeFault_mem (s : State) (f : FaultRecord) : (s.takeFault f).mem = s.mem := rfl

@[simp] theorem State.applyReset_config (s : State) : s.applyReset.config = s.config := rfl
@[simp] theorem State.applyReset_regs (s : State) : s.applyReset.regs = { a := 0, b := 0, c := 0, d := 0 } := rfl
@[simp] theorem State.applyReset_pc (s : State) : s.applyReset.pc = 0 := rfl
@[simp] theorem State.applyReset_sp (s : State) : s.applyReset.sp = s.config.spInit := rfl
@[simp] theorem State.applyReset_carry (s : State) : s.applyReset.carry = false := rfl
@[simp] theorem State.applyReset_zero (s : State) : s.applyReset.zero = false := rfl
@[simp] theorem State.applyReset_status (s : State) : s.applyReset.status = .ready := rfl
@[simp] theorem State.applyReset_faultInfo (s : State) : s.applyReset.faultInfo = none := rfl
@[simp] theorem State.applyReset_mem (s : State) : s.applyReset.mem = [] := rfl

/-- Reading a register of the register file after a write. -/
theorem Regs.get_set (x : Regs) (r q : Reg) (v : Byte) :
    (x.set r v).get q = if q = r then v else x.get q := by
  cases r <;> cases q <;> rfl

@[simp] theorem Regs.get_set_same (x : Regs) (r : Reg) (v : Byte) : (x.set r v).get r = v := by
  cases r <;> rfl

/-- Two register files with the same values are the same. -/
theorem Regs.ext_get {x y : Regs} (h : ∀ r, x.get r = y.get r) : x = y := by
  cases x
  cases y
  simpa [Regs.get] using And.intro (h .A) (And.intro (h .B) (And.intro (h .C) (h .D)))

@[simp] theorem State.getReg_setFlags (s : State) (c z : Bool) (q : Reg) : (s.setFlags c z).getReg q = s.getReg q := rfl
@[simp] theorem State.getReg_setSp (s : State) (v : Int) (q : Reg) : (s.setSp v).getReg q = s.getReg q := rfl
@[simp] theorem State.getReg_advance (s : State) (n : Nat) (q : Reg) : (s.advance n).getReg q = s.getReg q := rfl
@[simp] theorem State.getReg_setPc (s : State) (a : Nat) (q : Reg) : (s.setPc a).getReg q = s.getReg q := rfl
@[simp] theorem State.getReg_halt (s : State) (q : Reg) : (s.halt).getReg q = s.getReg q := rfl
@[simp] theorem State.getReg_takeFault (s : State) (f : FaultRecord) (q : Reg) : (s.takeFault f).getReg q = s.getReg q := rfl

theorem State.getReg_setReg (s : State) (r q : Reg) (v : Byte) :
    (s.setReg r v).getReg q = if q = r then v else s.getReg q :=
  Regs.get_set s.regs r q v

@[simp] theorem State.getReg_setReg_same (s : State) (r : Reg) (v : Byte) :
    (s.setReg r v).getReg r = v :=
  Regs.get_set_same s.regs r v

@[simp] theorem State.commitArith_config (s : State) (rd : Reg) (raw : Int) (n : Nat) :
    (s.commitArith rd raw n).config = s.config := rfl
@[simp] theorem State.commitArith_regs (s : State) (rd : Reg) (raw : Int) (n : Nat) :
    (s.commitArith rd raw n).regs = s.regs.set rd (normalizeRaw s.config.negWrap raw).value := rfl
@[simp] theorem State.commitArith_pc (s : State) (rd : Reg) (raw : Int) (n : Nat) :
    (s.commitArith rd raw n).pc = s.pc + n := rfl
@[simp] theorem State.commitArith_sp (s : State) (rd : Reg) (raw : Int) (n : Nat) :
    (s.commitArith rd raw n).sp = s.sp := rfl
@[simp] theorem State.commitArith_carry (s : State) (rd : Reg) (raw : Int) (n : Nat) :
    (s.commitArith rd raw n).carry = (normalizeRaw s.config.negWrap raw).carry := rfl
@[simp] theorem State.commitArith_zero (s : State) (rd : Reg) (raw : Int) (n : Nat) :
    (s.commitArith rd raw n).zero = (normalizeRaw s.config.negWrap raw).zero := rfl
@[simp] theorem State.commitArith_status (s : State) (rd : Reg) (raw : Int) (n : Nat) :
    (s.commitArith rd raw n).status = s.status := rfl
@[simp] theorem State.commitArith_faultInfo (s : State) (rd : Reg) (raw : Int) (n : Nat) :
    (s.commitArith rd raw n).faultInfo = s.faultInfo := rfl
@[simp] theorem State.commitArith_mem (s : State) (rd : Reg) (raw : Int) (n : Nat) :
    (s.commitArith rd raw n).mem = s.mem := rfl

@[simp] theorem State.commitCompare_config (s : State) (raw : Int) (n : Nat) :
    (s.commitCompare raw n).config = s.config := rfl
@[simp] theorem State.commitCompare_regs (s : State) (raw : Int) (n : Nat) :
    (s.commitCompare raw n).regs = s.regs := rfl
@[simp] theorem State.commitCompare_pc (s : State) (raw : Int) (n : Nat) :
    (s.commitCompare raw n).pc = s.pc + n := rfl
@[simp] theorem State.commitCompare_sp (s : State) (raw : Int) (n : Nat) :
    (s.commitCompare raw n).sp = s.sp := rfl
@[simp] theorem State.commitCompare_carry (s : State) (raw : Int) (n : Nat) :
    (s.commitCompare raw n).carry = (normalizeRaw s.config.negWrap raw).carry := rfl
@[simp] theorem State.commitCompare_zero (s : State) (raw : Int) (n : Nat) :
    (s.commitCompare raw n).zero = (normalizeRaw s.config.negWrap raw).zero := rfl
@[simp] theorem State.commitCompare_status (s : State) (raw : Int) (n : Nat) :
    (s.commitCompare raw n).status = s.status := rfl
@[simp] theorem State.commitCompare_faultInfo (s : State) (raw : Int) (n : Nat) :
    (s.commitCompare raw n).faultInfo = s.faultInfo := rfl
@[simp] theorem State.commitCompare_mem (s : State) (raw : Int) (n : Nat) :
    (s.commitCompare raw n).mem = s.mem := rfl

end Sys2Proof.Machine
end

