-- ==== Sys2Proof/Laws/Memory.lean ====
section
/-! SUPPORT. Memory: what a read after a write gives, and that every operation keeps the canonical form
and the bound. None of these needs the list to be canonical but where it says so. -/

namespace Sys2Proof.Machine

theorem Memory.read_erase_same (m : Memory) (a : Nat) : (m.erase a).read a = Memory.unlisted := by
  induction m with
  | nil => rfl
  | cons c rest ih =>
    obtain ⟨b, w⟩ := c
    by_cases h : b = a
    · simpa [Memory.erase, h] using ih
    · simpa [Memory.erase, h, Memory.read] using ih

theorem Memory.read_erase_other (m : Memory) {a b : Nat} (h : b ≠ a) :
    (m.erase a).read b = m.read b := by
  induction m with
  | nil => rfl
  | cons c rest ih =>
    obtain ⟨x, w⟩ := c
    by_cases hx : x = a
    · have hb : x ≠ b := fun e => h (e ▸ hx)
      simpa [Memory.erase, hx, Memory.read, hb, h.symm] using ih
    · by_cases hb : x = b
      · subst hb
        simp [Memory.erase, hx, Memory.read]
      · simpa [Memory.erase, hx, Memory.read, hb] using ih

theorem Memory.read_insert_same (m : Memory) (a : Nat) (v : Byte) (h : ∀ c ∈ m, c.1 ≠ a) :
    (m.insert a v).read a = v := by
  induction m with
  | nil => simp [Memory.insert, Memory.read]
  | cons c rest ih =>
    obtain ⟨b, w⟩ := c
    have hb : b ≠ a := h (b, w) (by simp)
    have hr := ih fun c hc => h c (by simp [hc])
    by_cases hlt : a < b
    · simp [Memory.insert, hlt, Memory.read]
    · simpa [Memory.insert, hlt, Memory.read, hb] using hr

theorem Memory.read_insert_other (m : Memory) (a : Nat) (v : Byte) {b : Nat} (h : b ≠ a) :
    (m.insert a v).read b = m.read b := by
  induction m with
  | nil => simp [Memory.insert, Memory.read, h.symm]
  | cons c rest ih =>
    obtain ⟨x, w⟩ := c
    by_cases hlt : a < x
    · simp [Memory.insert, hlt, Memory.read, h.symm]
    · simp [Memory.insert, hlt, Memory.read, ih]

theorem Memory.not_mem_erase (m : Memory) (a : Nat) : ∀ c ∈ m.erase a, c.1 ≠ a := by
  simp [Memory.erase]

/-- A read after a write to the same address gives the byte written. -/
@[simp] theorem Memory.read_write_same (m : Memory) (a : Nat) (v : Byte) :
    (m.write a v).read a = v := by
  by_cases h : v = Memory.unlisted
  · simpa [Memory.write, h] using Memory.read_erase_same m a
  · simpa [Memory.write, h] using
      Memory.read_insert_same (m.erase a) a v (Memory.not_mem_erase m a)

/-- A write leaves every other address alone. -/
theorem Memory.read_write_other (m : Memory) {a b : Nat} (v : Byte) (h : b ≠ a) :
    (m.write a v).read b = m.read b := by
  by_cases hv : v = Memory.unlisted
  · simpa [Memory.write, hv] using Memory.read_erase_other m h
  · simp [Memory.write, hv, Memory.read_insert_other _ a v h, Memory.read_erase_other m h]

theorem Memory.wf_iff (m : Memory) :
    m.wf = true ↔ m.Pairwise (fun c c' => c.1 < c'.1) ∧ ∀ c ∈ m, c.2 ≠ Memory.unlisted := by
  simp [Memory.wf]

theorem Memory.below_iff (n : Nat) (m : Memory) :
    Memory.below n m = true ↔ ∀ c ∈ m, c.1 < n := by
  simp [Memory.below]

theorem Memory.mem_insert {m : Memory} {a : Nat} {v : Byte} {c : Host.Cell} :
    c ∈ m.insert a v ↔ c = (a, v) ∨ c ∈ m := by
  induction m with
  | nil => simp [Memory.insert]
  | cons x rest ih =>
    obtain ⟨b, w⟩ := x
    by_cases hlt : a < b
    · simp [Memory.insert, hlt]
    · simp only [Memory.insert, hlt, if_false, List.mem_cons, ih]
      tauto

theorem Memory.pairwise_insert {m : Memory} {a : Nat} {v : Byte}
    (hm : m.Pairwise fun c c' => c.1 < c'.1) (ha : ∀ c ∈ m, c.1 ≠ a) :
    (m.insert a v).Pairwise fun c c' => c.1 < c'.1 := by
  induction m with
  | nil => simp [Memory.insert]
  | cons x rest ih =>
    obtain ⟨b, w⟩ := x
    obtain ⟨hb, hr⟩ := List.pairwise_cons.1 hm
    by_cases hlt : a < b
    · simp only [Memory.insert, hlt, if_true]
      refine List.pairwise_cons.2 ⟨fun c hc => ?_, hm⟩
      rcases List.mem_cons.1 hc with rfl | h
      · exact hlt
      · exact hlt.trans (hb c h)
    · have hba : b < a := by
        have := ha (b, w) (by simp)
        simp only at this
        omega
      simp only [Memory.insert, hlt, if_false, List.pairwise_cons]
      refine ⟨fun c hc => ?_, ih hr fun c hc => ha c (by simp [hc])⟩
      rcases Memory.mem_insert.1 hc with rfl | h
      · exact hba
      · exact hb c h

/-- A write keeps the canonical form. -/
theorem Memory.wf_write {m : Memory} (h : m.wf = true) (a : Nat) (v : Byte) :
    (m.write a v).wf = true := by
  rw [Memory.wf_iff] at h ⊢
  have he : (m.erase a).Pairwise fun c c' => c.1 < c'.1 := h.1.filter _
  have hz : ∀ c ∈ m.erase a, c.2 ≠ Memory.unlisted := fun c hc => h.2 c (List.mem_filter.1 hc).1
  by_cases hv : v = Memory.unlisted
  · simpa [Memory.write, hv] using And.intro he hz
  · refine ⟨by simpa [Memory.write, hv] using
      Memory.pairwise_insert he (Memory.not_mem_erase m a), fun c hc => ?_⟩
    rcases Memory.mem_insert.1 (by simpa [Memory.write, hv] using hc) with rfl | h'
    · exact hv
    · exact hz c h'

/-- A write below the bound keeps the bound. -/
theorem Memory.below_write {n : Nat} {m : Memory} (h : Memory.below n m = true) {a : Nat}
    (ha : a < n) (v : Byte) : Memory.below n (m.write a v) = true := by
  rw [Memory.below_iff] at h ⊢
  have he : ∀ c ∈ m.erase a, c.1 < n := fun c hc => h c (List.mem_filter.1 hc).1
  by_cases hv : v = Memory.unlisted
  · simpa [Memory.write, hv] using he
  · intro c hc
    rcases Memory.mem_insert.1 (by simpa [Memory.write, hv] using hc) with rfl | h'
    · exact ha
    · exact he c h'

/-- Loading bytes keeps the canonical form. -/
theorem Memory.wf_load (n : Nat) {m : Memory} (h : m.wf = true) (a : Nat) (bs : List Byte) :
    (Memory.load n m a bs).wf = true := by
  induction bs generalizing m a with
  | nil => exact h
  | cons b bs ih =>
    refine ih ?_ (a + 1)
    split
    · exact Memory.wf_write h a b
    · exact h

/-- Loading bytes keeps the bound. -/
theorem Memory.below_load {n : Nat} {m : Memory} (h : Memory.below n m = true) (a : Nat)
    (bs : List Byte) : Memory.below n (Memory.load n m a bs) = true := by
  induction bs generalizing m a with
  | nil => exact h
  | cons b bs ih =>
    refine ih ?_ (a + 1)
    split
    · next ha => exact Memory.below_write h ha b
    · exact h

/-- What a cell holds after a load: a loaded byte where one landed, the old byte elsewhere. -/
theorem Memory.read_load (n : Nat) (m : Memory) (a : Nat) (bs : List Byte) (b : Nat) :
    (Memory.load n m a bs).read b =
      if h : a ≤ b ∧ b < n ∧ b - a < bs.length then bs[b - a]'h.2.2 else m.read b := by
  induction bs generalizing m a with
  | nil => simp [Memory.load]
  | cons x bs ih =>
    rw [Memory.load, ih]
    rcases Nat.lt_trichotomy b a with hlt | rfl | hgt
    · have h1 : ¬ a + 1 ≤ b := by omega
      have h2 : ¬ a ≤ b := by omega
      have hne : b ≠ a := by omega
      simp only [h1, h2, false_and, dif_neg, not_false_eq_true]
      split
      · exact Memory.read_write_other m x hne
      · rfl
    · have h1 : ¬ b + 1 ≤ b := by omega
      simp only [h1, false_and, dif_neg, not_false_eq_true]
      by_cases hn : b < n <;> simp [hn]
    · have hne : b ≠ a := by omega
      obtain ⟨k, rfl⟩ : ∃ k, b = a + 1 + k := ⟨b - (a + 1), by omega⟩
      have e1 : a + 1 + k - (a + 1) = k := by omega
      have e2 : a + 1 + k - a = k + 1 := by omega
      have hr : (if a < n then m.write a x else m).read (a + 1 + k) = m.read (a + 1 + k) := by
        split
        · exact Memory.read_write_other m x hne
        · rfl
      simp only [e1, e2, hr, List.length_cons, List.getElem_cons_succ, Nat.add_lt_add_iff_right]
      have h1 : a + 1 ≤ a + 1 + k := by omega
      have h2 : a ≤ a + 1 + k := by omega
      simp only [h1, h2, true_and]

/-- The memory of every reset state is in canonical form. -/
theorem State.resetWith_mem_wf (c : Config) : (State.resetWith c).mem.wf = true := rfl

theorem State.reset_mem_wf : State.reset.mem.wf = true := rfl

end Sys2Proof.Machine
end

