-- ==== Sys2Proof/Laws/Ops.lean ====
section
/-! SUPPORT. One lemma per shared operation that says everything it can do. -/

namespace Sys2Proof.Machine

/-- RegCheck passes exactly the index of a register. -/
theorem regCheck_eq_ok {i : Nat} {r : Reg} : regCheck i = .ok r ↔ regOfIndex i = some r := by
  unfold regCheck
  split <;> simp_all

/-- RegCheck fails exactly above 3, and names the index. -/
theorem regCheck_eq_error {i : Nat} {f : FaultRecord} :
    regCheck i = .error f ↔ 3 < i ∧ f = .registerFault i := by
  match i with
  | 0 | 1 | 2 | 3 => simp [regCheck, regOfIndex]
  | k + 4 =>
    have : 3 < k + 4 := by omega
    simp [regCheck, regOfIndex, this, eq_comm]

/-- An index 0..3 names a register. -/
theorem regOfIndex_isSome {i : Nat} (h : i ≤ 3) : ∃ r, regOfIndex i = some r := by
  match i, h with
  | 0, _ => exact ⟨_, rfl⟩
  | 1, _ => exact ⟨_, rfl⟩
  | 2, _ => exact ⟨_, rfl⟩
  | 3, _ => exact ⟨_, rfl⟩

theorem regOfIndex_le {i : Nat} {r : Reg} (h : regOfIndex i = some r) : i ≤ 3 := by
  match i with
  | 0 | 1 | 2 | 3 => omega
  | k + 4 => simp [regOfIndex] at h

/-- MemRead answers inside memory, and only there. -/
theorem State.memRead_eq_ok {s : State} {a : Int} {v : Byte} :
    s.memRead a = .ok v ↔
      0 ≤ a ∧ a < s.config.memSize ∧ s.mem.read a.toNat = v := by
  unfold State.memRead
  split
  · constructor
    · intro h; cases h
    · rintro ⟨h1, h2, -⟩; omega
  · constructor
    · intro h; cases h; exact ⟨by omega, by omega, rfl⟩
    · rintro ⟨-, -, rfl⟩; rfl

theorem State.memRead_eq_error {s : State} {a : Int} {f : FaultRecord} :
    s.memRead a = .error f ↔
      (a < 0 ∨ (s.config.memSize : Int) ≤ a) ∧ f = .addressFault a := by
  unfold State.memRead
  split <;> simp_all [eq_comm]

/-- MemRead at an address that is a Nat below N. -/
theorem State.memRead_nat {s : State} {a : Nat} (h : a < s.config.memSize) :
    s.memRead a = .ok (s.mem.read a) :=
  State.memRead_eq_ok.2 ⟨by omega, by omega, by simp⟩

theorem State.memRead_nat_error {s : State} {a : Nat} (h : s.config.memSize ≤ a) :
    s.memRead a = .error (.addressFault a) :=
  State.memRead_eq_error.2 ⟨by omega, rfl⟩

/-- MemWrite changes one byte of memory, inside memory, and nothing else. -/
theorem State.memWrite_eq_ok {s t : State} {a : Int} {v : Byte} :
    s.memWrite a v = .ok t ↔
      0 ≤ a ∧ a < s.config.memSize ∧ t = { s with mem := s.mem.write a.toNat v } := by
  unfold State.memWrite
  split
  · constructor
    · intro h; cases h
    · rintro ⟨h1, h2, -⟩; omega
  · constructor
    · intro h; cases h; exact ⟨by omega, by omega, rfl⟩
    · rintro ⟨-, -, rfl⟩; rfl

theorem State.memWrite_eq_error {s : State} {a : Int} {v : Byte} {f : FaultRecord} :
    s.memWrite a v = .error f ↔
      (a < 0 ∨ (s.config.memSize : Int) ≤ a) ∧ f = .addressFault a := by
  unfold State.memWrite
  split <;> simp_all [eq_comm]

/-- An instruction ends in the state it commits or in the fault it raised, taken from the start. -/
theorem conclude_eq_next {s t : State} {r : Except FaultRecord State} :
    conclude s r = .next t ↔ r = .ok t ∨ ∃ f, r = .error f ∧ t = s.takeFault f := by
  unfold conclude
  split <;> simp [eq_comm]

@[simp] theorem conclude_ok (s t : State) : conclude s (.ok t) = .next t := rfl

@[simp] theorem conclude_error (s : State) (f : FaultRecord) :
    conclude s (.error f) = .next (s.takeFault f) := rfl

/-- A sequence of two phases that commits has both commit. -/
theorem bind_eq_ok {α β : Type} {x : Except FaultRecord α} {g : α → Except FaultRecord β} {b : β} :
    (x >>= g) = .ok b ↔ ∃ a, x = .ok a ∧ g a = .ok b := by
  cases x <;> simp [bind, Except.bind]

/-- A sequence of two phases raises what the first raises, or else what the second does. -/
theorem bind_eq_error {α β : Type} {x : Except FaultRecord α} {g : α → Except FaultRecord β}
    {f : FaultRecord} :
    (x >>= g) = .error f ↔ x = .error f ∨ ∃ a, x = .ok a ∧ g a = .error f := by
  cases x <;> simp [bind, Except.bind]

theorem pure_eq_ok {α : Type} {a b : α} : (pure a : Except FaultRecord α) = .ok b ↔ a = b := by
  simp [pure, Except.pure]

theorem pure_eq_error {α : Type} {a : α} {f : FaultRecord} :
    (pure a : Except FaultRecord α) = .error f ↔ False := by
  simp [pure, Except.pure]

theorem operandReg_eq_ok {d r : Nibble} {s : State} {p : Reg × Byte} :
    operandReg d r s = .ok p ↔
      ∃ rd rs, regOfIndex d.toNat = some rd ∧ regOfIndex r.toNat = some rs ∧ p = (rd, s.getReg rs) := by
  simp only [operandReg, bind_eq_ok, pure_eq_ok, regCheck_eq_ok]
  constructor
  · rintro ⟨rd, h1, rs, h2, rfl⟩; exact ⟨rd, rs, h1, h2, rfl⟩
  · rintro ⟨rd, rs, h1, h2, rfl⟩; exact ⟨rd, h1, rs, h2, rfl⟩

theorem operandRegaddr_eq_ok {d r : Nibble} {s : State} {p : Reg × Byte} :
    operandRegaddr d r s = .ok p ↔
      ∃ rd rs, regOfIndex d.toNat = some rd ∧ regOfIndex r.toNat = some rs ∧
        (s.getReg rs).toNat < s.config.memSize ∧ p = (rd, s.mem.read (s.getReg rs).toNat) := by
  simp only [operandRegaddr, bind_eq_ok, pure_eq_ok, regCheck_eq_ok, State.memRead_eq_ok]
  constructor
  · rintro ⟨rd, h1, rs, h2, v, ⟨-, h3, h4⟩, rfl⟩
    exact ⟨rd, rs, h1, h2, by omega, by rw [← h4]; simp⟩
  · rintro ⟨rd, rs, h1, h2, h3, rfl⟩
    exact ⟨rd, h1, rs, h2, _, ⟨by omega, by omega, rfl⟩, by simp⟩

theorem operandNum_eq_ok {d n : Byte} {p : Reg × Byte} :
    operandNum d n = .ok p ↔ ∃ rd, regOfIndex d.toNat = some rd ∧ p = (rd, n) := by
  simp only [operandNum, bind_eq_ok, pure_eq_ok, regCheck_eq_ok, eq_comm (b := p)]

theorem operandAddr_eq_ok {d a : Byte} {s : State} {p : Reg × Byte} :
    operandAddr d a s = .ok p ↔
      ∃ rd, regOfIndex d.toNat = some rd ∧ a.toNat < s.config.memSize ∧
        p = (rd, s.mem.read a.toNat) := by
  simp only [operandAddr, bind_eq_ok, pure_eq_ok, regCheck_eq_ok, State.memRead_eq_ok]
  constructor
  · rintro ⟨rd, h1, v, ⟨-, h3, h4⟩, rfl⟩
    exact ⟨rd, h1, by omega, by rw [← h4]; simp⟩
  · rintro ⟨rd, h1, h3, rfl⟩
    exact ⟨rd, h1, _, ⟨by omega, by omega, rfl⟩, by simp⟩

theorem operandSole_eq_ok {r : Byte} {s : State} {p : Reg × Byte} :
    operandSole r s = .ok p ↔ ∃ rr, regOfIndex r.toNat = some rr ∧ p = (rr, s.getReg rr) := by
  simp only [operandSole, bind_eq_ok, pure_eq_ok, regCheck_eq_ok, eq_comm (b := p)]

/-- The register of an index above 3 is none. -/
theorem regOfIndex_eq_none {i : Nat} : regOfIndex i = none ↔ 3 < i := by
  constructor
  · intro h
    by_contra hi
    obtain ⟨r, hr⟩ := regOfIndex_isSome (Nat.le_of_not_lt hi)
    simp [hr] at h
  · intro h
    cases hr : regOfIndex i with
    | none => rfl
    | some r => exact absurd (regOfIndex_le hr) (by omega)

/-- The register forms fault on the destination's index, or else on the source's. -/
theorem operandReg_eq_error {d r : Nibble} {s : State} {f : FaultRecord} :
    operandReg d r s = .error f ↔
      (3 < d.toNat ∧ f = .registerFault d.toNat) ∨
      (d.toNat ≤ 3 ∧ 3 < r.toNat ∧ f = .registerFault r.toNat) := by
  simp only [operandReg, bind_eq_error, pure_eq_error, regCheck_eq_error, regCheck_eq_ok, and_false,
    exists_false, or_false]
  exact or_congr_right ⟨fun ⟨_, h1, h2⟩ => ⟨regOfIndex_le h1, h2⟩,
    fun ⟨h1, h2⟩ => (regOfIndex_isSome h1).imp fun _ h => ⟨h, h2⟩⟩

/-- The register-address forms fault on an index as the register forms do, or else on the address. -/
theorem operandRegaddr_eq_error {d r : Nibble} {s : State} {f : FaultRecord} :
    operandRegaddr d r s = .error f ↔
      (3 < d.toNat ∧ f = .registerFault d.toNat) ∨
      (d.toNat ≤ 3 ∧ 3 < r.toNat ∧ f = .registerFault r.toNat) ∨
      (d.toNat ≤ 3 ∧ ∃ rs, regOfIndex r.toNat = some rs ∧ s.config.memSize ≤ (s.getReg rs).toNat ∧
        f = .addressFault (s.getReg rs).toNat) := by
  simp only [operandRegaddr, bind_eq_error, pure_eq_error, regCheck_eq_error, regCheck_eq_ok, and_false,
    exists_false, or_false, State.memRead_eq_error]
  refine or_congr_right ⟨?_, ?_⟩
  · rintro ⟨rd, h1, h2 | ⟨rs, h2, h3, h4⟩⟩
    · exact .inl ⟨regOfIndex_le h1, h2⟩
    · exact .inr ⟨regOfIndex_le h1, rs, h2, by omega, h4⟩
  · rintro (⟨h1, h2⟩ | ⟨h1, rs, h2, h3, h4⟩)
    · exact (regOfIndex_isSome h1).imp fun _ h => ⟨h, .inl h2⟩
    · exact (regOfIndex_isSome h1).imp fun _ h => ⟨h, .inr ⟨rs, h2, by omega, h4⟩⟩

theorem operandNum_eq_error {d n : Byte} {f : FaultRecord} :
    operandNum d n = .error f ↔ 3 < d.toNat ∧ f = .registerFault d.toNat := by
  simp only [operandNum, bind_eq_error, pure_eq_error, regCheck_eq_error, and_false, exists_false, or_false]

/-- The direct-address forms fault on the index, or else on the address. -/
theorem operandAddr_eq_error {d a : Byte} {s : State} {f : FaultRecord} :
    operandAddr d a s = .error f ↔
      (3 < d.toNat ∧ f = .registerFault d.toNat) ∨
      (d.toNat ≤ 3 ∧ s.config.memSize ≤ a.toNat ∧ f = .addressFault a.toNat) := by
  simp only [operandAddr, bind_eq_error, pure_eq_error, regCheck_eq_error, regCheck_eq_ok, and_false,
    exists_false, or_false, State.memRead_eq_error]
  refine or_congr_right ⟨?_, ?_⟩
  · rintro ⟨rd, h1, h2, h3⟩; exact ⟨regOfIndex_le h1, by omega, h3⟩
  · rintro ⟨h1, h2, h3⟩; exact (regOfIndex_isSome h1).imp fun _ h => ⟨h, by omega, h3⟩

theorem operandSole_eq_error {r : Byte} {s : State} {f : FaultRecord} :
    operandSole r s = .error f ↔ 3 < r.toNat ∧ f = .registerFault r.toNat := by
  simp only [operandSole, bind_eq_error, pure_eq_error, regCheck_eq_error, and_false, exists_false, or_false]

/-- A taken jump goes to a target below N. -/
theorem State.takeJump_eq_ok {s t : State} {v : Byte} :
    s.takeJump v = .ok t ↔ v.toNat < s.config.memSize ∧ t = s.setPc v.toNat := by
  unfold State.takeJump
  split <;> simp_all [eq_comm]

theorem State.takeJump_eq_error {s : State} {v : Byte} {f : FaultRecord} :
    s.takeJump v = .error f ↔ s.config.memSize ≤ v.toNat ∧ f = .addressFault v.toNat := by
  unfold State.takeJump
  split
  · next h => simp only [reduceCtorEq, false_iff, not_and]; omega
  · next h => simpa [eq_comm] using fun _ => Nat.le_of_not_lt h

/-- A jump on a condition is taken, or falls through to the next instruction. -/
theorem State.jumpIf_eq_ok {s t : State} {c : Bool} {v : Byte} :
    s.jumpIf c v = .ok t ↔
      (c = true ∧ v.toNat < s.config.memSize ∧ t = s.setPc v.toNat) ∨
        (c = false ∧ t = s.advance 2) := by
  cases c <;> simp [State.jumpIf, State.takeJump_eq_ok, eq_comm (b := t)]

/-- A jump on a condition faults only when it is taken. -/
theorem State.jumpIf_eq_error {s : State} {c : Bool} {v : Byte} {f : FaultRecord} :
    s.jumpIf c v = .error f ↔
      c = true ∧ s.config.memSize ≤ v.toNat ∧ f = .addressFault v.toNat := by
  cases c <;> simp [State.jumpIf, State.takeJump_eq_error]

/-- A push stores one byte at SP, inside memory, and lowers SP by one. -/
theorem State.push_eq_ok {s t : State} {v : Byte} :
    s.push v = .ok t ↔
      0 ≤ s.sp ∧ s.sp < s.config.memSize ∧
        t = { s with mem := s.mem.write s.sp.toNat v, sp := s.sp - 1 } := by
  simp only [State.push, bind_eq_ok, pure_eq_ok, State.memWrite_eq_ok]
  constructor
  · rintro ⟨u, ⟨h1, h2, rfl⟩, rfl⟩; exact ⟨h1, h2, rfl⟩
  · rintro ⟨h1, h2, rfl⟩; exact ⟨_, ⟨h1, h2, rfl⟩, rfl⟩

theorem State.push_eq_error {s : State} {v : Byte} {f : FaultRecord} :
    s.push v = .error f ↔
      (s.sp < 0 ∨ (s.config.memSize : Int) ≤ s.sp) ∧ f = .addressFault s.sp := by
  simp only [State.push, bind_eq_error, pure_eq_error, State.memWrite_eq_error, and_false,
    exists_false, or_false]

/-- A pop reads the byte above SP into the register and raises SP to it. -/
theorem State.pop_eq_ok {s t : State} {rd : Reg} :
    s.pop rd = .ok t ↔
      0 ≤ s.sp + 1 ∧ s.sp + 1 < s.config.memSize ∧
        t = (s.setReg rd (s.mem.read (s.sp + 1).toNat)).setSp (s.sp + 1) := by
  simp only [State.pop, bind_eq_ok, pure_eq_ok, State.memRead_eq_ok]
  constructor
  · rintro ⟨v, ⟨h1, h2, rfl⟩, rfl⟩; exact ⟨h1, h2, rfl⟩
  · rintro ⟨h1, h2, rfl⟩; exact ⟨_, ⟨h1, h2, rfl⟩, rfl⟩

theorem State.pop_eq_error {s : State} {rd : Reg} {f : FaultRecord} :
    s.pop rd = .error f ↔
      (s.sp + 1 < 0 ∨ (s.config.memSize : Int) ≤ s.sp + 1) ∧ f = .addressFault (s.sp + 1) := by
  simp only [State.pop, bind_eq_error, pure_eq_error, State.memRead_eq_error, and_false,
    exists_false, or_false]

/-- Normalize says carry exactly when the raw result leaves 0..255. -/
theorem normalizeRaw_carry (rule : NegWrapRule) (r : Int) :
    (normalizeRaw rule r).carry = decide (r < 0 ∨ 256 ≤ r) := by
  unfold normalizeRaw
  split_ifs <;> simp <;> omega

/-- Normalize says zero exactly when the raw result is 0. -/
theorem normalizeRaw_zero (rule : NegWrapRule) (r : Int) :
    (normalizeRaw rule r).zero = decide (r = 0) := by
  unfold normalizeRaw
  split_ifs <;> simp <;> omega

/-- Normalize keeps a raw result that is a byte. -/
theorem normalizeRaw_value_of_byte (rule : NegWrapRule) {r : Int} (h0 : 0 ≤ r) (h1 : r < 256) :
    (normalizeRaw rule r).value = BitVec.ofInt 8 r := by
  unfold normalizeRaw
  split_ifs <;> first | rfl | omega | simp_all

/-- The opcode of an assembled instruction is the one it was assembled for. -/
@[simp] theorem assemble_opcode (o : Opcode) (b1 b2 : Byte) : (o.assemble b1 b2).opcode = o := by
  cases o <;> rfl

/-- What a fetch that succeeds has read: an assigned opcode at IP, below N, and the operand bytes of
its format, all below N. -/
theorem fetch_eq_ok {s : State} {i : Instr} :
    fetch s = .ok i ↔
      s.pc < s.config.memSize ∧ ∃ o, s.config.opcodeMap.opcodeOf (s.mem.read s.pc) = some o ∧
        s.pc + o.length ≤ s.config.memSize ∧
        i = match o.format with
          | .n => o.assemble 0 0
          | .rb => o.assemble (s.mem.read (s.pc + 1)) (s.mem.read (s.pc + 2))
          | _ => o.assemble (s.mem.read (s.pc + 1)) 0 := by
  have hread : ∀ (a : Nat) (v : Byte),
      s.memRead a = .ok v ↔ a < s.config.memSize ∧ s.mem.read a = v := fun a v => by
    rw [State.memRead_eq_ok]
    constructor
    · rintro ⟨-, h, rfl⟩; exact ⟨by omega, by simp⟩
    · rintro ⟨h, rfl⟩; exact ⟨by omega, by omega, by simp⟩
  simp only [fetch, bind_eq_ok, hread]
  constructor
  · rintro ⟨op, ⟨hpc, rfl⟩, h⟩
    refine ⟨hpc, ?_⟩
    cases ho : s.config.opcodeMap.opcodeOf (s.mem.read s.pc) with
    | none => simp [ho] at h
    | some o =>
      refine ⟨o, rfl, ?_⟩
      simp only [ho] at h
      cases hf : o.format <;>
        simp only [hf, fetchOne, fetchTwo, bind_eq_ok, pure_eq_ok, hread] at h <;>
        simp only [Opcode.length, hf, InstrFormat.length]
      · exact ⟨by omega, h.symm⟩
      · obtain ⟨_, ⟨h1, rfl⟩, rfl⟩ := h; exact ⟨by omega, rfl⟩
      · obtain ⟨_, ⟨_, rfl⟩, _, ⟨h2, rfl⟩, rfl⟩ := h; exact ⟨by omega, rfl⟩
      · obtain ⟨_, ⟨h1, rfl⟩, rfl⟩ := h; exact ⟨by omega, rfl⟩
      · obtain ⟨_, ⟨h1, rfl⟩, rfl⟩ := h; exact ⟨by omega, rfl⟩
  · rintro ⟨hpc, o, ho, hlen, rfl⟩
    refine ⟨_, ⟨hpc, rfl⟩, ?_⟩
    simp only [ho]
    cases hf : o.format <;> simp only [Opcode.length, hf, InstrFormat.length] at hlen <;>
      simp only [fetchOne, fetchTwo, bind_eq_ok, pure_eq_ok, hread]
    · exact ⟨_, ⟨by omega, rfl⟩, rfl⟩
    · exact ⟨_, ⟨by omega, rfl⟩, _, ⟨by omega, rfl⟩, rfl⟩
    · exact ⟨_, ⟨by omega, rfl⟩, rfl⟩
    · exact ⟨_, ⟨by omega, rfl⟩, rfl⟩

/-- What one tick can do: report the sticky fault, halt or stay halted, take a fault of the fetch, or
run the instruction fetched. -/
theorem step_cases (s : State) :
    (s.status = .faulted ∧ step s = .fault (.stickyFault s.faultInfo)) ∨
    (s.status = .halted ∧ step s = .next s) ∨
    (s.status = .ready ∧ s.config.memSize ≤ s.pc ∧ step s = .next s.halt) ∨
    (s.status = .ready ∧ s.pc < s.config.memSize ∧
      ((∃ f, fetch s = .error f ∧ step s = .next (s.takeFault f)) ∨
        ∃ i, fetch s = .ok i ∧ step s = exec i s)) := by
  unfold step tick
  cases hs : s.status with
  | faulted => exact .inl ⟨rfl, rfl⟩
  | halted => exact .inr (.inl ⟨rfl, rfl⟩)
  | ready =>
    by_cases h : s.config.memSize ≤ s.pc
    · exact .inr (.inr (.inl ⟨rfl, h, by simp [h]⟩))
    · refine .inr (.inr (.inr ⟨rfl, by omega, ?_⟩))
      cases hf : fetch s with
      | error f => exact .inl ⟨f, rfl, by simp [h]⟩
      | ok i => exact .inr ⟨i, rfl, by simp [h]⟩

end Sys2Proof.Machine
end

