-- ==== Sys2Proof/Laws/PerInstr.lean ====
section
/-! SUPPORT. What holds of every instruction as syntax, one lemma per constructor: its bytes are as many
as its opcode's format says, and begin with its opcode byte (30_encoding R80, R83, R98). -/

namespace Sys2Proof.Laws.EncodeLength

/-- Under any opcode map, the instruction's bytes begin with its opcode byte and are 1, 2 or 3, as many
as the opcode alone fixes. -/
def Statement (i : Sys2Proof.Instr) : Prop :=
  ∀ m : OpcodeMap, (encode m i).head? = some (m.byteOf i.opcode) ∧
    (encode m i).length = i.opcode.length ∧ 1 ≤ i.opcode.length ∧ i.opcode.length ≤ 3

theorem stop : Statement (.stop) := fun _ => by
  simp [encode, Instr.operandBytes, Instr.opcode, Opcode.length, Opcode.format, InstrFormat.length]

theorem movRegToReg (d r : Nibble) : Statement (.movRegToReg d r) := fun _ => by
  simp [encode, Instr.operandBytes, Instr.opcode, Opcode.length, Opcode.format, InstrFormat.length]

theorem movRegaddrToReg (d r : Nibble) : Statement (.movRegaddrToReg d r) := fun _ => by
  simp [encode, Instr.operandBytes, Instr.opcode, Opcode.length, Opcode.format, InstrFormat.length]

theorem movNumToReg (d n : Byte) : Statement (.movNumToReg d n) := fun _ => by
  simp [encode, Instr.operandBytes, Instr.opcode, Opcode.length, Opcode.format, InstrFormat.length]

theorem movAddrToReg (d a : Byte) : Statement (.movAddrToReg d a) := fun _ => by
  simp [encode, Instr.operandBytes, Instr.opcode, Opcode.length, Opcode.format, InstrFormat.length]

theorem addRegToReg (d r : Nibble) : Statement (.addRegToReg d r) := fun _ => by
  simp [encode, Instr.operandBytes, Instr.opcode, Opcode.length, Opcode.format, InstrFormat.length]

theorem addRegaddrToReg (d r : Nibble) : Statement (.addRegaddrToReg d r) := fun _ => by
  simp [encode, Instr.operandBytes, Instr.opcode, Opcode.length, Opcode.format, InstrFormat.length]

theorem addNumToReg (d n : Byte) : Statement (.addNumToReg d n) := fun _ => by
  simp [encode, Instr.operandBytes, Instr.opcode, Opcode.length, Opcode.format, InstrFormat.length]

theorem addAddrToReg (d a : Byte) : Statement (.addAddrToReg d a) := fun _ => by
  simp [encode, Instr.operandBytes, Instr.opcode, Opcode.length, Opcode.format, InstrFormat.length]

theorem subRegFromReg (d r : Nibble) : Statement (.subRegFromReg d r) := fun _ => by
  simp [encode, Instr.operandBytes, Instr.opcode, Opcode.length, Opcode.format, InstrFormat.length]

theorem subRegaddrFromReg (d r : Nibble) : Statement (.subRegaddrFromReg d r) := fun _ => by
  simp [encode, Instr.operandBytes, Instr.opcode, Opcode.length, Opcode.format, InstrFormat.length]

theorem subNumFromReg (d n : Byte) : Statement (.subNumFromReg d n) := fun _ => by
  simp [encode, Instr.operandBytes, Instr.opcode, Opcode.length, Opcode.format, InstrFormat.length]

theorem subAddrFromReg (d a : Byte) : Statement (.subAddrFromReg d a) := fun _ => by
  simp [encode, Instr.operandBytes, Instr.opcode, Opcode.length, Opcode.format, InstrFormat.length]

theorem cmpRegWithReg (d r : Nibble) : Statement (.cmpRegWithReg d r) := fun _ => by
  simp [encode, Instr.operandBytes, Instr.opcode, Opcode.length, Opcode.format, InstrFormat.length]

theorem cmpRegaddrWithReg (d r : Nibble) : Statement (.cmpRegaddrWithReg d r) := fun _ => by
  simp [encode, Instr.operandBytes, Instr.opcode, Opcode.length, Opcode.format, InstrFormat.length]

theorem cmpNumWithReg (d n : Byte) : Statement (.cmpNumWithReg d n) := fun _ => by
  simp [encode, Instr.operandBytes, Instr.opcode, Opcode.length, Opcode.format, InstrFormat.length]

theorem cmpAddrWithReg (d a : Byte) : Statement (.cmpAddrWithReg d a) := fun _ => by
  simp [encode, Instr.operandBytes, Instr.opcode, Opcode.length, Opcode.format, InstrFormat.length]

theorem incReg (r : Byte) : Statement (.incReg r) := fun _ => by
  simp [encode, Instr.operandBytes, Instr.opcode, Opcode.length, Opcode.format, InstrFormat.length]

theorem decReg (r : Byte) : Statement (.decReg r) := fun _ => by
  simp [encode, Instr.operandBytes, Instr.opcode, Opcode.length, Opcode.format, InstrFormat.length]

theorem jmpReg (r : Byte) : Statement (.jmpReg r) := fun _ => by
  simp [encode, Instr.operandBytes, Instr.opcode, Opcode.length, Opcode.format, InstrFormat.length]

theorem jmpAddr (a : Byte) : Statement (.jmpAddr a) := fun _ => by
  simp [encode, Instr.operandBytes, Instr.opcode, Opcode.length, Opcode.format, InstrFormat.length]

theorem jcReg (r : Byte) : Statement (.jcReg r) := fun _ => by
  simp [encode, Instr.operandBytes, Instr.opcode, Opcode.length, Opcode.format, InstrFormat.length]

theorem jcAddr (a : Byte) : Statement (.jcAddr a) := fun _ => by
  simp [encode, Instr.operandBytes, Instr.opcode, Opcode.length, Opcode.format, InstrFormat.length]

theorem jncReg (r : Byte) : Statement (.jncReg r) := fun _ => by
  simp [encode, Instr.operandBytes, Instr.opcode, Opcode.length, Opcode.format, InstrFormat.length]

theorem jncAddr (a : Byte) : Statement (.jncAddr a) := fun _ => by
  simp [encode, Instr.operandBytes, Instr.opcode, Opcode.length, Opcode.format, InstrFormat.length]

theorem jzReg (r : Byte) : Statement (.jzReg r) := fun _ => by
  simp [encode, Instr.operandBytes, Instr.opcode, Opcode.length, Opcode.format, InstrFormat.length]

theorem jzAddr (a : Byte) : Statement (.jzAddr a) := fun _ => by
  simp [encode, Instr.operandBytes, Instr.opcode, Opcode.length, Opcode.format, InstrFormat.length]

theorem jnzReg (r : Byte) : Statement (.jnzReg r) := fun _ => by
  simp [encode, Instr.operandBytes, Instr.opcode, Opcode.length, Opcode.format, InstrFormat.length]

theorem jnzAddr (a : Byte) : Statement (.jnzAddr a) := fun _ => by
  simp [encode, Instr.operandBytes, Instr.opcode, Opcode.length, Opcode.format, InstrFormat.length]

theorem pushReg (r : Byte) : Statement (.pushReg r) := fun _ => by
  simp [encode, Instr.operandBytes, Instr.opcode, Opcode.length, Opcode.format, InstrFormat.length]

theorem pushRegaddr (r : Byte) : Statement (.pushRegaddr r) := fun _ => by
  simp [encode, Instr.operandBytes, Instr.opcode, Opcode.length, Opcode.format, InstrFormat.length]

theorem pushAddr (a : Byte) : Statement (.pushAddr a) := fun _ => by
  simp [encode, Instr.operandBytes, Instr.opcode, Opcode.length, Opcode.format, InstrFormat.length]

theorem pushNum (n : Byte) : Statement (.pushNum n) := fun _ => by
  simp [encode, Instr.operandBytes, Instr.opcode, Opcode.length, Opcode.format, InstrFormat.length]

theorem popReg (r : Byte) : Statement (.popReg r) := fun _ => by
  simp [encode, Instr.operandBytes, Instr.opcode, Opcode.length, Opcode.format, InstrFormat.length]

end Sys2Proof.Laws.EncodeLength
end

