-- ==== Sys2Proof/Tests/Slice0.lean ====
section
/-! SUPPORT. Tests of the model: the WellFormed smoke, a word of every row of 30_encoding R95 written out
from its encoding, one-step tests taken from 95_test_vectors.md, and for every statement that has
hypotheses a witness that meets them. Every expected value comes from the spec, none from the model. -/

namespace Sys2Proof.Tests

open Sys2Proof Sys2Proof.Machine Sys2Proof.Claims

/-! ## Helpers -/

/-- The default machine after reset with bytes loaded at `a` and IP there. -/
def at' (a : Nat) (bytes : List Byte) : State :=
  { State.reset with pc := a, mem := Memory.load 256 [] a bytes }

/-- The default machine launched with a program at 0. -/
def prog (bytes : List Byte) : State :=
  at' 0 bytes

/-- The machine with the four registers set. -/
def withRegs (s : State) (a b c d : Byte) : State :=
  { s with regs := { a := a, b := b, c := c, d := d } }

/-- The machine with one more byte loaded. -/
def withByte (s : State) (a : Nat) (v : Byte) : State :=
  { s with mem := Memory.load s.config.memSize s.mem a [v] }

/-- The machine with another number of cells. -/
def withSize (s : State) (n : Nat) : State :=
  { s with config := { s.config with memSize := n } }

/-- The machine under MOD256. -/
def withMod256 (s : State) : State :=
  { s with config := { s.config with negWrap := .mod256 } }

/-- A step gives a next state of which `p` holds. -/
def gives (s : State) (p : State → Bool) : Bool :=
  match step s with
  | .next t => p t
  | _ => false

/-- The next state, or the state itself where there is none. -/
def after (s : State) : State :=
  match step s with
  | .next t => t
  | _ => s

/-- A step faults with the record `f`, and keeps pc, sp and all registers (R314). -/
def faults (s : State) (f : FaultRecord) : Bool :=
  gives s fun t => t.status = .faulted && t.faultInfo = some f && t.pc = s.pc && t.sp = s.sp &&
    t.regs = s.regs && t.mem = s.mem

/-- The default decoder reads exactly this instruction from these bytes. -/
def reads (bytes : List Byte) (i : Instr) : Bool :=
  match decode .default bytes with
  | .ok (j, []) => j = i
  | _ => false

/-! ## WellFormed smoke: an ill-formed term for each check (R84, R85, R97) -/

theorem test_wellFormed_accepts : (Instr.movRegToReg 3 3).wellFormed && (Instr.movNumToReg 3 255).wellFormed &&
    (Instr.incReg 3).wellFormed && (Instr.jmpAddr 255).wellFormed && Instr.stop.wellFormed = true := by
  decide

theorem test_wellFormed_refuses_destination_nibble : (Instr.addRegToReg 4 0).wellFormed = false := by
  decide

theorem test_wellFormed_refuses_source_nibble : (Instr.subRegFromReg 0 15).wellFormed = false := by
  decide

theorem test_wellFormed_refuses_destination_byte : (Instr.movAddrToReg 4 0).wellFormed = false := by
  decide

theorem test_wellFormed_refuses_sole_register : (Instr.popReg 255).wellFormed = false := by
  decide

/-! ## Every row's word, bit by bit from its rule's Encoding line -/

/-- R300. -/
theorem test_decode_stop : reads [0b00000000] .stop = true := by decide

/-- R200 to R203. -/
theorem test_decode_mov :
    reads [0b00000001, 0b00100001] (.movRegToReg 2 1) && reads [0b00000010, 0b00110000] (.movRegaddrToReg 3 0) &&
    reads [0b00000011, 0b00000010, 0b10000001] (.movNumToReg 2 0x81) &&
    reads [0b00000100, 0b00000001, 0b11101000] (.movAddrToReg 1 0xE8) = true := by decide

/-- R160 to R163. -/
theorem test_decode_add :
    reads [0b00000101, 0b00000001] (.addRegToReg 0 1) && reads [0b00000110, 0b00010010] (.addRegaddrToReg 1 2) &&
    reads [0b00000111, 0b00000000, 0b00001010] (.addNumToReg 0 10) &&
    reads [0b00001000, 0b00000001, 0b00010000] (.addAddrToReg 1 0x10) = true := by decide

/-- R165 to R168. -/
theorem test_decode_sub :
    reads [0b00001001, 0b00000001] (.subRegFromReg 0 1) && reads [0b00001010, 0b00100011] (.subRegaddrFromReg 2 3) &&
    reads [0b00001011, 0b00000000, 0b00000001] (.subNumFromReg 0 1) &&
    reads [0b00001100, 0b00000011, 0b10000000] (.subAddrFromReg 3 0x80) = true := by decide

/-- R170 to R173. -/
theorem test_decode_cmp :
    reads [0b00001101, 0b00000001] (.cmpRegWithReg 0 1) && reads [0b00001110, 0b01001111] (.cmpRegaddrWithReg 4 15) &&
    reads [0b00001111, 0b00000010, 0b00001010] (.cmpNumWithReg 2 10) &&
    reads [0b00010000, 0b00000001, 0b00000101] (.cmpAddrWithReg 1 5) = true := by decide

/-- R175, R176. -/
theorem test_decode_incDec :
    reads [0b00010001, 0b00000001] (.incReg 1) && reads [0b00010010, 0b11111111] (.decReg 255) = true := by
  decide

/-- R235 to R240. -/
theorem test_decode_jmp_jc_jnc :
    reads [0b00010011, 0b00000000] (.jmpReg 0) && reads [0b00010100, 0b10000000] (.jmpAddr 0x80) &&
    reads [0b00010101, 0b00000001] (.jcReg 1) && reads [0b00010110, 0b00110000] (.jcAddr 0x30) &&
    reads [0b00010111, 0b00000010] (.jncReg 2) && reads [0b00011000, 0b00000001] (.jncAddr 1) = true := by
  decide

/-- R241 to R244. -/
theorem test_decode_jz_jnz :
    reads [0b00011001, 0b00000011] (.jzReg 3) && reads [0b00011010, 0b01000000] (.jzAddr 0x40) &&
    reads [0b00011011, 0b00000000] (.jnzReg 0) && reads [0b00011100, 0b00000011] (.jnzAddr 3) = true := by
  decide

/-- R271 to R274, R281. -/
theorem test_decode_stack :
    reads [0b00011101, 0b00000000] (.pushReg 0) && reads [0b00011110, 0b00000001] (.pushRegaddr 1) &&
    reads [0b00011111, 0b11101000] (.pushAddr 0xE8) && reads [0b00100000, 0b00000111] (.pushNum 7) &&
    reads [0b00100001, 0b00000010] (.popReg 2) = true := by decide

/-- R96: 0x22 is unknown, and is refused before an operand byte is looked for. -/
theorem test_decode_refuses_unknown :
    (match decode .default [0x22] with | .error (.unknownOpcode op) => op = 0x22 | _ => false) = true := by
  decide

/-- R82: an instruction with a byte missing is refused by name. -/
theorem test_decode_refuses_missing_byte :
    (match decode .default [0x07, 0x00] with | .error (.missingByte k) => k = 2 | _ => false) = true := by
  decide

/-- opcode_table.json's numbering: byte 0 is bits 7..0, byte 1 bits 15..8, byte 2 bits 23..16. -/
theorem test_decodeTableWord : decodeTableWord 24 0x100108 = some (.addAddrToReg 1 0x10) := by decide

/-! ## One step of every instruction (95_test_vectors.md) -/

/-- V-MOV-1: flags untouched. -/
theorem test_movRegToReg : gives { withRegs (prog [0x01, 0x01]) 0 7 0 0 with carry := true, zero := true }
    (fun t => t.regs.a = 7 && t.regs.b = 7 && t.carry && t.zero && t.pc = 2) = true := by decide

/-- V-MOV-8: the destination nibble. -/
theorem test_movRegToReg_faults : faults (prog [0x01, 0x40]) (.registerFault 4) = true := by decide

/-- V-MOV-3: the pointer register is the destination. -/
theorem test_movRegaddrToReg : gives (withByte (withRegs (prog [0x02, 0x00]) 5 0 0 0) 5 0x99)
    (fun t => t.regs.a = 0x99 && t.pc = 2) = true := by decide

/-- V-MOV-4. -/
theorem test_movNumToReg : gives (prog [0x03, 0x02, 0x03]) (fun t => t.regs.c = 3 && t.pc = 3 && !t.zero) = true := by
  decide

/-- V-MOV-7: one dereference. -/
theorem test_movAddrToReg : gives (withByte (withByte (prog [0x04, 0x00, 0x10]) 0x10 0x20) 0x20 0x77)
    (fun t => t.regs.a = 0x20 && t.pc = 3) = true := by decide

/-- V-MOV-9: N = 0x80. -/
theorem test_movAddrToReg_faults : faults (withSize (prog [0x04, 0x00, 0x90]) 0x80) (.addressFault 0x90) = true := by
  decide

/-- V-ADD-2, W4: a wrapped 0 sets carry and not zero; source and destination the same. -/
theorem test_addRegToReg : gives (withRegs (prog [0x05, 0x00]) 0x80 0 0 0)
    (fun t => t.regs.a = 0 && t.carry && !t.zero && t.pc = 2) = true := by decide

/-- V-ADD-3. -/
theorem test_addRegToReg_largest : gives (withRegs (prog [0x05, 0x01]) 0xFF 0xFF 0 0)
    (fun t => t.regs.a = 0xFE && t.regs.b = 0xFF && t.carry && !t.zero) = true := by decide

/-- V-ADD-4. -/
theorem test_addRegaddrToReg : gives (withByte (withRegs (prog [0x06, 0x01]) 1 0x40 0 0) 0x40 0xFF)
    (fun t => t.regs.a = 0 && t.carry && !t.zero) = true := by decide

/-- V-ADD-9: N = 0x20. -/
theorem test_addRegaddrToReg_faults : faults (withSize (withRegs (prog [0x06, 0x01]) 0 0x30 0 0) 0x20)
    (.addressFault 0x30) = true := by decide

/-- V-ADD-8: carry is not carried over. -/
theorem test_addNumToReg : gives { prog [0x07, 0x00, 0x00] with carry := true }
    (fun t => t.regs.a = 0 && !t.carry && t.zero && t.pc = 3) = true := by decide

/-- V-ADD-10: byte 2 lies past the end. -/
theorem test_addNumToReg_faults : faults (at' 0xFE [0x07, 0x00]) (.addressFault 0x100) = true := by
  decide

/-- V-ADD-5. -/
theorem test_addAddrToReg : gives (withByte (withRegs (prog [0x08, 0x01, 0x10]) 0 3 0 0) 0x10 4)
    (fun t => t.regs.b = 7 && !t.carry && !t.zero && t.pc = 3) = true := by decide

/-- W6: a negative difference under DOC_FORMULA. -/
theorem test_subRegFromReg : gives (withRegs (prog [0x09, 0x01]) 3 5 0 0)
    (fun t => t.regs.a = 253 && t.carry && !t.zero && t.pc = 2) = true := by decide

/-- V-SUB-8: the destination nibble is checked first. -/
theorem test_subRegFromReg_faults : faults (prog [0x09, 0x5F]) (.registerFault 5) = true := by decide

/-- V-SUB-5. -/
theorem test_subRegaddrFromReg : gives (withByte (withRegs (prog [0x0A, 0x23]) 0 0 9 0x20) 0x20 9)
    (fun t => t.regs.c = 0 && t.zero && !t.carry) = true := by decide

/-- V-SUB-4: a wrapped 0 under DOC_FORMULA. -/
theorem test_subNumFromReg : gives (prog [0x0B, 0x00, 0xFF])
    (fun t => t.regs.a = 0 && t.carry && !t.zero && t.pc = 3) = true := by decide

/-- V-SUB-4 under MOD256. -/
theorem test_subNumFromReg_mod256 : gives (withMod256 (prog [0x0B, 0x00, 0xFF]))
    (fun t => t.regs.a = 1 && t.carry && !t.zero) = true := by decide

/-- V-SUB-6. -/
theorem test_subAddrFromReg : gives (withByte (withRegs (prog [0x0C, 0x03, 0x80]) 0 0 0 100) 0x80 1)
    (fun t => t.regs.d = 99 && !t.carry && !t.zero && t.pc = 3) = true := by decide

/-- V-CMP-2: no register written. -/
theorem test_cmpRegWithReg : gives (withRegs (prog [0x0D, 0x01]) 5 7 0 0)
    (fun t => t.regs.a = 5 && t.carry && !t.zero && t.pc = 2) = true := by decide

/-- V-CMP-6. -/
theorem test_cmpRegaddrWithReg : gives (withByte (withRegs (prog [0x0E, 0x01]) 0x41 0x30 0 0) 0x30 0x41)
    (fun t => t.regs.a = 0x41 && !t.carry && t.zero && t.pc = 2) = true := by decide

/-- V-CMP-4. -/
theorem test_cmpNumWithReg : gives (withRegs (prog [0x0F, 0x02, 0x0A]) 0 0 10 0)
    (fun t => t.regs.c = 10 && !t.carry && t.zero && t.pc = 3) = true := by decide

/-- V-CMP-5. -/
theorem test_cmpAddrWithReg : gives (withByte (withRegs (prog [0x10, 0x01, 0x05]) 0 1 0 0) 5 2)
    (fun t => t.regs.b = 1 && t.carry && !t.zero && t.pc = 3) = true := by decide

/-- V-INC-2. -/
theorem test_incReg : gives (withRegs (prog [0x11, 0x01]) 0 0xFF 0 0)
    (fun t => t.regs.b = 0 && t.carry && !t.zero && t.pc = 2) = true := by decide

/-- V-T-7: the operand byte lies past the end. -/
theorem test_incReg_faults : faults (at' 0xFF [0x11]) (.addressFault 0x100) = true := by decide

/-- V-DEC-2, W12. -/
theorem test_decReg : gives (prog [0x12, 0x02]) (fun t => t.regs.c = 0xFE && t.carry && !t.zero) = true := by
  decide

/-- V-DEC-2 under MOD256. -/
theorem test_decReg_mod256 : gives (withMod256 (prog [0x12, 0x02]))
    (fun t => t.regs.c = 0xFF && t.carry && !t.zero) = true := by decide

/-- V-J-2. -/
theorem test_jmpReg : gives (withRegs (prog [0x13, 0x00]) 0x10 0 0 0) (fun t => t.pc = 0x10) = true := by
  decide

/-- V-J-1. -/
theorem test_jmpAddr : gives (at' 5 [0x14, 0x00]) (fun t => t.pc = 0) = true := by decide

/-- V-J-11: N = 0x40. -/
theorem test_jmpAddr_faults : faults (withSize (prog [0x14, 0x50]) 0x40) (.addressFault 0x50) = true := by
  decide

/-- V-J-3. -/
theorem test_jcReg : gives { withRegs (prog [0x15, 0x01]) 0 0x20 0 0 with carry := true } (fun t => t.pc = 0x20) = true := by
  decide

/-- V-J-13: the register is checked although the jump is not taken. -/
theorem test_jcReg_faults : faults (prog [0x15, 0x07]) (.registerFault 7) = true := by decide

/-- V-J-4, W8. -/
theorem test_jcAddr : gives { at' 4 [0x16, 0x30] with zero := true } (fun t => t.pc = 6 && !t.carry && t.zero) = true := by
  decide

/-- V-J-12: a target not taken is not checked. -/
theorem test_jcAddr_target_unchecked : gives (withSize (prog [0x16, 0x50]) 0x40)
    (fun t => t.pc = 2 && t.status = .ready) = true := by decide

/-- V-J-5. -/
theorem test_jncReg : gives (withRegs (prog [0x17, 0x02]) 0 0 8 0) (fun t => t.pc = 8) = true := by
  decide

/-- V-J-6. -/
theorem test_jncAddr : gives { at' 9 [0x18, 0x00] with carry := true } (fun t => t.pc = 11) = true := by
  decide

/-- V-J-7. -/
theorem test_jzReg : gives { at' 6 [0x19, 0x03] with zero := true } (fun t => t.pc = 0) = true := by
  decide

/-- V-J-8. -/
theorem test_jzAddr : gives { prog [0x1A, 0x40] with zero := true } (fun t => t.pc = 0x40) = true := by
  decide

/-- V-J-9. -/
theorem test_jnzReg : gives (withRegs (prog [0x1B, 0x00]) 3 0 0 0) (fun t => t.pc = 3) = true := by
  decide

/-- V-J-10. -/
theorem test_jnzAddr : gives { at' 5 [0x1C, 0x03] with zero := true } (fun t => t.pc = 7) = true := by
  decide

/-- V-S-1. -/
theorem test_pushReg : gives (withRegs (prog [0x1D, 0x00]) 0x2A 0 0 0)
    (fun t => cell t 0xE8 = 0x2A && t.sp = 0xE7 && t.pc = 2) = true := by decide

/-- V-S-4. -/
theorem test_pushRegaddr : gives (withByte (withRegs (prog [0x1E, 0x01]) 0 0x10 0 0) 0x10 9)
    (fun t => cell t 0xE8 = 9 && t.sp = 0xE7) = true := by decide

/-- R272, R320: both addresses are out of range, and the read's fault is reported (N = 0x20). -/
theorem test_pushRegaddr_faults : faults (withSize (withRegs (prog [0x1E, 0x01]) 0 0x30 0 0) 0x20)
    (.addressFault 0x30) = true := by decide

/-- V-S-5. -/
theorem test_pushAddr : gives (prog [0x1F, 0x00]) (fun t => cell t 0xE8 = 0x1F && t.sp = 0xE7) = true := by
  decide

/-- V-S-6: SP leaves the unsigned range. -/
theorem test_pushNum : gives { at' 0x10 [0x20, 0xAA] with sp := 0 } (fun t => cell t 0 = 0xAA && t.sp = -1) = true := by
  decide

/-- V-S-7. -/
theorem test_pushNum_faults : faults { prog [0x20, 0xAA] with sp := -1 } (.addressFault (-1)) = true := by
  decide

/-- V-S-9: POP of an empty stack. -/
theorem test_popReg : gives (withRegs (prog [0x21, 0x01]) 0 5 0 0) (fun t => t.regs.b = 0 && t.sp = 0xE9) = true := by
  decide

/-- V-S-8. -/
theorem test_popReg_faults : faults { prog [0x21, 0x00] with sp := 0xFF } (.addressFault 0x100) = true := by
  decide

/-- V-T-1. -/
theorem test_stop : gives (at' 4 [0x00]) (fun t => t.status = .halted && t.pc = 4) = true := by decide

/-! ## The tick, reset and the ports -/

/-- V-T-3: IP = N halts. -/
theorem test_tick_past_the_end : gives (at' 0x100 []) (fun t => t.status = .halted && t.pc = 0x100) = true := by
  decide

/-- V-T-5. -/
theorem test_tick_unknown_opcode : faults (prog [0xFF]) (.unknownOpcodeFault 0xFF) = true := by decide

/-- V-T-6. -/
theorem test_tick_sticky : tickResponse (step (after (prog [0x01, 0x40]))) =
    some (.stickyFault (some (.registerFault 4))) := by decide

/-- V-T-9. -/
theorem test_reset_after_fault : (after (prog [0x01, 0x40])).applyReset = State.reset := by decide

/-- W2: the loader saturates. -/
theorem test_loader_saturates :
    (match State.reset.loaderWrite 0x10 300 with | .ok t => cell t 0x10 = 0xFF | .error _ => false) = true := by
  decide

/-- C7: the loader clamps a negative value to 0. -/
theorem test_loader_clamps_negative :
    (match (prog [0x55]).loaderWrite 0 (-1) with | .ok t => cell t 0 = 0 | .error _ => false) = true := by
  decide

/-- withFetchWord places the instruction where the next step fetches (ADD A, 10 with A = 0). -/
theorem test_withFetchWord : gives (State.reset.withFetchWord 24 0x0A0007) (fun t => t.regs.a = 10 && t.pc = 3) = true := by
  decide

/-! ## Witnesses: for every statement with hypotheses, states and operands that meet them, each clause at
a boundary of its range -/

/-- One cell, SP_INIT 0: the smallest legal machine. -/
def smallest : Config :=
  { Config.default with memSize := 1, spInit := 0 }

/-- 65536 cells, SP_INIT 65535: the largest legal machine. -/
def largest : Config :=
  { Config.default with memSize := 65536, spInit := 65535, negWrap := .mod256 }

/-- A faulting run's state: program P5 after its second tick (RegisterFault(4) at 2). -/
def faultedP5 : State :=
  after (after (prog [0x11, 0x00, 0x01, 0x40, 0x00]))

/-- The opcode byte `op` alone at `a` of the default machine. -/
def opAt (a : Nat) (op : Byte) : State :=
  at' a [op]

theorem witness_ResetState : 0xFF < State.reset.config.memSize ∧ faultedP5.status = .faulted := by
  decide

theorem witness_ResetThenTick : 1 ≤ (State.resetWith smallest).config.memSize ∧
    (State.resetWith smallest).config.opcodeMap = OpcodeMap.default ∧
    1 ≤ faultedP5.config.memSize ∧ faultedP5.config.opcodeMap = OpcodeMap.default := by decide

theorem witness_InvAtReset : smallest.legal = true ∧ largest.legal = true ∧ Config.default.legal = true := by
  decide

/-- A Ready machine about to run INC B at the last two cells. -/
theorem inv_ready : (at' 0xFE [0x11, 0x01]).Inv where
  config_legal := by decide
  mem_wf := by decide
  mem_below := by decide
  pc_le := by decide
  sp_ge := by decide
  sp_lt := by decide
  flags_exclusive := by decide
  faulted_iff := by decide
  record_valid := fun _ h => nomatch h
  faulted_pc := by decide
  halted_at := by decide

/-- A machine halted by STOP at 4. -/
theorem inv_halted : ({ at' 4 [0x00] with status := .halted } : State).Inv where
  config_legal := by decide
  mem_wf := by decide
  mem_below := by decide
  pc_le := by decide
  sp_ge := by decide
  sp_lt := by decide
  flags_exclusive := by decide
  faulted_iff := by decide
  record_valid := fun _ h => nomatch h
  faulted_pc := by decide
  halted_at := by decide

/-- The step leaves IP at N, the edge of its range. -/
theorem witness_StepKeepsInv : (at' 0xFE [0x11, 0x01]).Inv ∧
    ∃ t, step (at' 0xFE [0x11, 0x01]) = .next t ∧ t.pc = 256 :=
  ⟨inv_ready, _, rfl, rfl⟩

theorem witness_LaunchedRunsKeepInv : Config.default.legal = true ∧
    Launched Config.default [0x11, 0x01, 0x05, 0x01, 0x00] (prog [0x11, 0x01, 0x05, 0x01, 0x00]) ∧
    ∃ t, Sys2Proof.core.run 1 (prog [0x11, 0x01, 0x05, 0x01, 0x00]) = .next t ∧ t.regs.b = 1 :=
  ⟨by decide, rfl, _, rfl, rfl⟩

/-- Before the first tick: a write to the last cell, and a bulk load that ends there. -/
theorem witness_HostOperationsKeepInv : (at' 0xFE [0x11, 0x01]).Inv ∧ (at' 0xFE [0x11, 0x01]).status = .ready ∧
    ((at' 0xFE [0x11, 0x01]).loaderWrite 255 300).isOk = true ∧
    ((at' 0xFE [0x11, 0x01]).bulkLoad 254 [1, 2]).isOk = true :=
  ⟨inv_ready, rfl, by decide, by decide⟩

/-- A program of exactly N bytes, and an empty one. -/
theorem witness_LaunchState : [0xFF].length ≤ smallest.memSize ∧ ([] : List Byte).length ≤ smallest.memSize := by
  decide

theorem witness_PointerWidths : (at' 0xFE [0x11, 0x01]).Inv ∧ 1 ≤ smallest.memSize ∧
    ¬ 2 ≤ smallest.spWidth ∧ 2 ≤ largest.spWidth ∧ largest.spWidth = 17 ∧ largest.ipWidth = 17 :=
  ⟨inv_ready, by decide⟩

/-- The first and the last address, both addresses outside, and a value above 255. -/
theorem witness_MemoryLaws : (0 : Int) < State.reset.config.memSize ∧ (255 : Int) < State.reset.config.memSize ∧
    ((-1 : Int) < 0 ∧ (State.reset.config.memSize : Int) ≤ 256) ∧ (255 : Int) < 256 := by decide

/-- A single write inside and outside; a bulk load that just fits, an empty one at N, and one byte too
many. -/
theorem witness_LoaderPort : ((255 : Int) < State.reset.config.memSize ∧ (State.reset.config.memSize : Int) ≤ 256) ∧
    ((0 : Int) ≤ 254 ∧ (254 : Int) + ([1, 2] : List Byte).length ≤ State.reset.config.memSize) ∧
    (256 : Int) + ([] : List Byte).length ≤ State.reset.config.memSize ∧
    (State.reset.config.memSize : Int) < 255 + ([1, 2] : List Byte).length := by decide

/-- Section 2.1's rows at the branches' edges. -/
theorem witness_NormalizeRule : (256 : Int) ≤ 256 ∧ (0 : Int) = 0 ∧ (-1 : Int) < 0 ∧
    ((1 : Int) ≤ 1 ∧ (1 : Int) ≤ 255) ∧ ((1 : Int) ≤ 255 ∧ (255 : Int) ≤ 255) := by decide

theorem witness_FlagLaws : ((-255 : Int) ≤ -255 ∧ (-255 : Int) ≤ -1) ∧ ((-255 : Int) ≤ -1 ∧ (-1 : Int) ≤ -1) := by
  decide

/-- An ADD that completes, and one that faults, each with a flag set before. -/
theorem witness_NoFlagCarriedOver :
    ((arithDest (.addNumToReg 0 0)).isSome || isCmp (.addNumToReg 0 0)) = true ∧
    ((arithDest (.cmpNumWithReg 4 0)).isSome || isCmp (.cmpNumWithReg 4 0)) = true ∧
    ({ State.reset with carry := true } : State).status = .ready ∧
    (∃ t, exec (.addNumToReg 0 0) { State.reset with carry := true } = .next t ∧ t.status = .ready) ∧
    ∃ t, exec (.cmpNumWithReg 4 0) { State.reset with carry := true } = .next t ∧ t.status = .faulted :=
  ⟨by decide, by decide, rfl, ⟨_, rfl, rfl⟩, _, rfl, rfl⟩

/-- The registers 0 and 3; x[3] is 0 after reset. -/
theorem witness_IncDecAreAddSubOne : (0 : Byte).toNat ≤ 3 ∧ (3 : Byte).toNat ≤ 3 ∧
    x State.reset (3 : Byte).toNat = 0 := by decide

/-- Every opcode at the first and at the last address: MovTick, AddTick, SubTick, CmpTick, IncDecTick,
JmpTick, JcTick, JzTick, PushTick, PopTick, StopTick. -/
theorem witness_ticks : ∀ k : Fin 34, At (BitVec.ofNat 8 k) (opAt 0 (BitVec.ofNat 8 k)) ∧
    At (BitVec.ofNat 8 k) (opAt 255 (BitVec.ofNat 8 k)) := by
  unfold At
  decide

/-- Registers 0 and 3, and an address byte and a register's value at N - 1 and at 0: MovCompletes,
AddCompletes, SubCompletes, CmpCompletes, IncDecCompletes. -/
theorem witness_completes : (0 : Nibble).toNat ≤ 3 ∧ (3 : Nibble).toNat ≤ 3 ∧ (3 : Byte).toNat ≤ 3 ∧
    (255 : Byte).toNat < State.reset.config.memSize ∧ (0 : Byte).toNat < State.reset.config.memSize ∧
    (x (withRegs State.reset 0 0 0 255) (3 : Nibble).toNat).toNat < State.reset.config.memSize ∧
    (0 : Byte).toNat < (State.resetWith smallest).config.memSize := by decide

/-- A taken jump to N - 1, a register jump to 0, and a jump not taken whose target is out of range. -/
theorem witness_ControlCompletes :
    (jumpCondition State.reset (.jmpAddr 255) = some true ∧ (Instr.jmpAddr 255).wellFormed = true ∧
      jumpTarget State.reset (.jmpAddr 255) < State.reset.config.memSize) ∧
    (jumpCondition State.reset (.jnzReg 3) = some true ∧ (Instr.jnzReg 3).wellFormed = true ∧
      jumpTarget State.reset (.jnzReg 3) < State.reset.config.memSize) ∧
    jumpCondition (State.resetWith smallest) (.jcAddr 255) = some false ∧ (Instr.jcAddr 255).wellFormed = true ∧
    jumpCondition State.reset (.jzReg 3) = some false ∧ (Instr.jzReg 3).wellFormed = true := by decide

/-- PUSH at SP = 0 and at SP = N - 1; POP at SP = -1 and at SP = N - 2. -/
theorem witness_StackCompletes :
    (0 ≤ ({ State.reset with sp := 0 } : State).sp ∧ (0 : Int) < State.reset.config.memSize) ∧
    (0 ≤ ({ State.reset with sp := 255 } : State).sp ∧ (255 : Int) < State.reset.config.memSize) ∧
    (0 ≤ (-1 : Int) + 1 ∧ (-1 : Int) + 1 < State.reset.config.memSize) ∧
    (254 : Int) + 1 < State.reset.config.memSize ∧ (255 : Byte).toNat < State.reset.config.memSize ∧
    (x State.reset (3 : Byte).toNat).toNat < State.reset.config.memSize := by decide

theorem witness_PushPopInverse : (0 : Byte).toNat ≤ 3 ∧ (3 : Byte).toNat ≤ 3 ∧
    0 ≤ ({ State.reset with sp := 0 } : State).sp ∧
    ({ State.reset with sp := 255 } : State).sp < State.reset.config.memSize := by decide

/-- Each of the four conditions holds in one of these two states and fails in the other. -/
theorem witness_ConditionalJumps : State.reset.carry = false ∧ (!State.reset.carry) = true ∧
    ({ State.reset with carry := true } : State).carry = true ∧ State.reset.zero = false ∧
    ({ State.reset with zero := true } : State).zero = true ∧ (3 : Byte).toNat ≤ 3 ∧ 3 < (4 : Byte).toNat := by
  decide

/-- FrameMove, FrameArith, FrameCompare, FrameJump: a MOV, an ADD, a CMP and a jump that complete, and a
MOV that faults. -/
theorem witness_frames : movDest (.movNumToReg 3 9) = some 3 ∧ arithDest (.addNumToReg 3 9) = some 3 ∧
    isCmp (.cmpNumWithReg 3 9) = true ∧ jumpCondition State.reset (.jcAddr 9) = some false ∧
    (Instr.jcAddr 9).wellFormed = true ∧ jumpCondition State.reset (.jmpAddr 9) = some true ∧
    (∃ t, exec (.jmpAddr 9) State.reset = .next t) ∧ (∃ t, exec (.movNumToReg 3 9) State.reset = .next t) ∧ (∃ t, exec (.addNumToReg 3 9) State.reset = .next t) ∧
    (∃ t, exec (.cmpNumWithReg 3 9) State.reset = .next t) ∧ (∃ t, exec (.jcAddr 9) State.reset = .next t) ∧
    movDest (.movNumToReg 4 9) = some 4 ∧ ∃ t, exec (.movNumToReg 4 9) State.reset = .next t ∧ t.status = .faulted :=
  ⟨rfl, rfl, rfl, rfl, rfl, rfl, ⟨_, rfl⟩, ⟨_, rfl⟩, ⟨_, rfl⟩, ⟨_, rfl⟩, ⟨_, rfl⟩, rfl, _, rfl, rfl⟩

/-- FramePush, FramePop: a PUSH at SP = 0, one at SP = -1 that faults, and a POP at SP = -1. -/
theorem witness_stack_frames : isPush (.pushNum 7) = true ∧ popDest (.popReg 3) = some 3 ∧
    (∃ t, exec (.pushNum 7) { State.reset with sp := 0 } = .next t ∧ t.sp = -1 ∧ cell t 0 = 7) ∧
    ({ State.reset with sp := -1 } : State).sp < 0 ∧
    (∃ t, exec (.pushNum 7) { State.reset with sp := -1 } = .next t ∧ t.status = .faulted) ∧
    ∃ t, exec (.popReg 3) { State.reset with sp := -1 } = .next t ∧ t.sp = 0 :=
  ⟨rfl, rfl, ⟨_, rfl, rfl, rfl⟩, by decide, ⟨_, rfl, rfl⟩, _, rfl, rfl⟩

/-- A tick that changes a flag, and one that changes memory and SP. -/
theorem witness_WhoWritesWhat :
    (∃ t, step (prog [0x12, 0x02]) = .next t ∧ t.carry ≠ (prog [0x12, 0x02]).carry) ∧
    ∃ t, step (prog [0x20, 0xAA]) = .next t ∧ cell t 0xE8 ≠ cell (prog [0x20, 0xAA]) 0xE8 ∧
      t.sp ≠ (prog [0x20, 0xAA]).sp :=
  ⟨⟨_, rfl, by decide⟩, _, rfl, by decide, by decide⟩

/-- STOP; an INC that ends at N; a jump not taken; a jump taken to N - 1. All four machines are Ready with
IP below N (the theorem after this one). -/
theorem witness_PcAfterInstruction :
    (∃ t, step (at' 4 [0x00]) = .next t ∧ fetch (at' 4 [0x00]) = .ok .stop ∧ t.status ≠ .faulted) ∧
    (∃ t, step (at' 0xFE [0x11, 0x01]) = .next t ∧ fetch (at' 0xFE [0x11, 0x01]) = .ok (.incReg 1) ∧
      t.pc = t.config.memSize ∧ t.status = .ready ∧ (at' 0xFE [0x11, 0x01]).status = .ready) ∧
    (∃ t, step (at' 4 [0x16, 0x30]) = .next t ∧ fetch (at' 4 [0x16, 0x30]) = .ok (.jcAddr 0x30) ∧
      jumpCondition (at' 4 [0x16, 0x30]) (.jcAddr 0x30) = some false ∧ t.status ≠ .faulted) ∧
    (∃ t, step (at' 4 [0x14, 0xFF]) = .next t ∧ fetch (at' 4 [0x14, 0xFF]) = .ok (.jmpAddr 0xFF) ∧
      jumpCondition (at' 4 [0x14, 0xFF]) (.jmpAddr 0xFF) = some true ∧ t.status ≠ .faulted) :=
  ⟨⟨_, rfl, rfl, by decide⟩, ⟨_, rfl, rfl, rfl, rfl, rfl⟩, ⟨_, rfl, rfl, rfl, by decide⟩, _, rfl, rfl, rfl, by decide⟩

theorem witness_PcAfterInstruction_ready : ∀ s ∈ [at' 4 [0x00], at' 0xFE [0x11, 0x01], at' 4 [0x16, 0x30],
    at' 4 [0x14, 0xFF], opAt 0xFE 0x03, opAt 0xFF 0x03],
    s.status = .ready ∧ s.pc < s.config.memSize ∧ Instr.incReg 1 ≠ .stop ∧ jumpCondition s (.incReg 1) = none := by
  decide

/-- Its last clause: a three-byte instruction with its last byte at N, and one with two bytes past. -/
theorem witness_PcAfterInstruction_past_the_end :
    OpcodeMap.default.opcodeOf (cell (opAt 0xFE 0x03) 0xFE) = some .movNumToReg ∧
    (opAt 0xFE 0x03).config.memSize < (opAt 0xFE 0x03).pc + Opcode.movNumToReg.length ∧
    (opAt 0xFF 0x03).config.memSize < (opAt 0xFF 0x03).pc + Opcode.movNumToReg.length := by decide

/-- The first bad field of a packed pair is the destination's; a well-formed instruction that faults on an
address (N = 1). -/
theorem witness_RegisterFaultFirst :
    ((Instr.addRegToReg 5 15).registerFields.find? fun k => decide (3 < k)) = some 5 ∧
    ((Instr.jcReg 4).registerFields.find? fun k => decide (3 < k)) = some 4 ∧
    (Instr.movAddrToReg 3 1).wellFormed = true ∧ (State.resetWith smallest).status = .ready ∧
    ∃ t, exec (.movAddrToReg 3 1) (State.resetWith smallest) = .next t ∧ t.status = .faulted :=
  ⟨by decide, by decide, by decide, rfl, _, rfl, rfl⟩

theorem witness_PreciseFault : (prog [0x01, 0x40]).status = .ready ∧
    ∃ t, step (prog [0x01, 0x40]) = .next t ∧ t.status = .faulted :=
  ⟨rfl, _, rfl, rfl⟩

theorem witness_StickyFault : faultedP5.status = .faulted ∧ faultedP5.faultInfo = some (.registerFault 4) ∧
    faultedP5.pc = 2 ∧ faultedP5.regs.a = 1 := by decide

/-- IP = N; and a machine halted at a STOP. -/
theorem witness_HaltChecks : ((at' 0x100 []).status = .ready ∧ (at' 0x100 []).config.memSize ≤ (at' 0x100 []).pc) ∧
    ({ at' 4 [0x00] with status := .halted } : State).status = .halted ∧
    ({ at' 4 [0x00] with status := .halted } : State).Inv :=
  ⟨by decide, rfl, inv_halted⟩

/-- The first and the last unknown opcode, at the last address. -/
theorem witness_UnknownOpcode : (opAt 0xFF 0x22).status = .ready ∧
    (opAt 0xFF 0x22).pc < (opAt 0xFF 0x22).config.memSize ∧
    (opAt 0xFF 0x22).config.opcodeMap.opcodeOf (cell (opAt 0xFF 0x22) 0xFF) = none ∧
    (opAt 0xFF 0xFF).config.opcodeMap.opcodeOf (cell (opAt 0xFF 0xFF) 0xFF) = none := by decide

/-- One state for each line of R320 from the second on, and one that meets none. -/
theorem witness_FaultPriority : faultedP5.status = .faulted ∧
    (firstFault (opAt 0xFF 0x22) = some (.unknownOpcodeFault 0x22) ∧
      firstFault (opAt 0xFF 0x03) = some (.addressFault 0x100) ∧
      firstFault (at' 0xFE [0x03, 0x04]) = some (.addressFault 0x100) ∧
      firstFault (prog [0x09, 0x5F]) = some (.registerFault 5) ∧
      firstFault (prog [0x09, 0x0F]) = some (.registerFault 15) ∧
      firstFault { withSize (prog [0x1F, 0x90]) 0x80 with sp := -1 } = some (.addressFault 0x90) ∧
      firstFault { prog [0x1F, 0x90] with sp := -1 } = some (.addressFault (-1)) ∧
      firstFault (prog [0x1F, 0x90]) = none) ∧
    (prog [0x1F, 0x90]).status = .ready ∧ (prog [0x1F, 0x90]).pc < (prog [0x1F, 0x90]).config.memSize := by
  decide

/-- N = 256 exactly, and an instruction that faults. -/
theorem witness_NoAddressFaultInFullMemory : 256 ≤ State.reset.config.memSize ∧ State.reset.status = .ready ∧
    isPush (.movAddrToReg 4 255) = false ∧ popDest (.movAddrToReg 4 255) = none ∧
    ∃ t, exec (.movAddrToReg 4 255) State.reset = .next t ∧ t.status = .faulted :=
  ⟨by decide, rfl, rfl, rfl, _, rfl, rfl⟩

theorem witness_TickAnswers : faultedP5.status = .faulted ∧
    ({ at' 4 [0x00] with status := .halted } : State).status = .halted ∧ (prog [0x11, 0x00]).status = .ready := by
  decide

/-- The last two cells of memory. -/
theorem witness_StepRunsDecoded : (at' 0xFE [0x11, 0x01]).status = .ready ∧
    (at' 0xFE [0x11, 0x01]).pc + [0x11, 0x01].length ≤ (at' 0xFE [0x11, 0x01]).config.memSize ∧
    (cell (at' 0xFE [0x11, 0x01]) 0xFE = 0x11 ∧ cell (at' 0xFE [0x11, 0x01]) 0xFF = 0x01) ∧
    decode (at' 0xFE [0x11, 0x01]).config.opcodeMap [0x11, 0x01] = .ok (.incReg 1, []) :=
  ⟨rfl, by decide, by decide, rfl⟩

/-- Program P6: SP = 2 = IP + 2, and the byte pushed is an unknown opcode. -/
theorem witness_FetchCoherence : At 0x20 { prog [0x20, 0xAA, 0x20, 0xBB, 0x00] with sp := 2 } ∧
    0x22 ≤ (cell (prog [0x20, 0xAA, 0x20, 0xBB, 0x00]) 1).toNat ∧
    (0 + 1 < Config.default.memSize ∧ (0 : Int) ≤ 2 ∧ (2 : Int) < Config.default.memSize ∧ (2 : Int) = (0 + 2 : Nat)) :=
  ⟨⟨rfl, rfl, by decide, by decide⟩, by decide, by decide⟩

/-- DecodeOfEncode, EncodeOfDecode. Two legal maps: the default one, and one that assigns the bytes from 0xDE up. -/
theorem witness_encoding : OpcodeMap.default.legal = true ∧
    OpcodeMap.legal (Opcode.all.zip ((List.range 34).map fun k => BitVec.ofNat 8 (0xDE + k))) = true ∧
    decode .default [0x10, 0x01, 0x05, 0xFF] = .ok (.cmpAddrWithReg 1 5, [0xFF]) :=
  ⟨by decide, by decide, rfl⟩

theorem witness_ObservationCodes : State.reset.faultInfo = none ∧ faultedP5.faultInfo = some (.registerFault 4) ∧
    faultedP5.status = .faulted ∧ faultedP5.flagsByte = 4 := by decide

end Sys2Proof.Tests
end

section
/-! SUPPORT. What a tick can do, said once: the equations of `step`, the inversion of `exec`
(`exec_cases`), and the inversion of a Ready machine's tick (`step_ready_cases`). -/

namespace Sys2Proof.Machine

open Sys2Proof.Claims

/-! ## Ties to the words of the statements -/

theorem takeFault_eq_faulted (s : State) (f : FaultRecord) : s.takeFault f = faulted s f := rfl

theorem regNamed_of_regOfIndex {k : Nat} {r : Reg} (h : regOfIndex k = some r) : regNamed k = r := by
  match k with
  | 0 | 1 | 2 | 3 => exact Option.some.inj h
  | k + 4 => simp [regOfIndex] at h

theorem x_of_regOfIndex {k : Nat} {r : Reg} (s : State) (h : regOfIndex k = some r) :
    x s k = s.getReg r := by
  rw [x, regNamed_of_regOfIndex h, State.getReg]

/-! ## The equations of a tick -/

theorem step_of_faulted {s : State} (h : s.status = .faulted) :
    step s = .fault (.stickyFault s.faultInfo) := by
  simp [step, tick, h]

theorem step_of_halted {s : State} (h : s.status = .halted) : step s = .next s := by
  simp [step, tick, h]

theorem step_past_end {s : State} (hs : s.status = .ready) (hpc : s.config.memSize ≤ s.pc) :
    step s = .next s.halt := by
  simp [step, tick, hs, hpc]

theorem step_of_fetch_error {s : State} {f : FaultRecord} (hs : s.status = .ready)
    (hpc : s.pc < s.config.memSize) (hf : fetch s = .error f) :
    step s = .next (s.takeFault f) := by
  simp [step, tick, hs, hpc, hf]

theorem step_of_fetch_ok {s : State} {i : Instr} (hs : s.status = .ready)
    (hpc : s.pc < s.config.memSize) (hf : fetch s = .ok i) : step s = exec i s := by
  simp [step, tick, hs, hpc, hf]

/-! ## The answers of a tick -/

theorem tickResponse_ready {t : State} (h : t.status = .ready) :
    tickResponse (.next t) = some .continue := by
  simp [tickResponse, h]

theorem tickResponse_halted {t : State} (h : t.status = .halted) :
    tickResponse (.next t) = some .halted := by
  simp [tickResponse, h]

theorem tickResponse_takeFault (s : State) (f : FaultRecord) :
    tickResponse (.next (s.takeFault f)) = some (.fault (some f)) := rfl

theorem tickResponse_step_of_faulted {s : State} (h : s.status = .faulted) :
    tickResponse (step s) = some (.stickyFault s.faultInfo) := by
  rw [step_of_faulted h, tickResponse]

/-! ## Fetching past the end of memory (10_state R25, 40_execution R124) -/

theorem fetchOne_past_end {s : State} (o : Opcode) (h : s.config.memSize = s.pc + 1) :
    fetchOne s o = .error (.addressFault s.config.memSize) := by
  rw [fetchOne, State.memRead_nat_error h.le, h]
  rfl

/-- The first of two operand bytes at N, or the second. -/
theorem fetchTwo_past_end {s : State} (o : Opcode)
    (h : s.config.memSize = s.pc + 1 ∨ s.config.memSize = s.pc + 2) :
    fetchTwo s o = .error (.addressFault s.config.memSize) := by
  rcases h with h | h
  · rw [fetchTwo, State.memRead_nat_error h.le, h]
    rfl
  · rw [fetchTwo, State.memRead_nat (by omega), State.memRead_nat_error h.le, h]
    rfl

/-- The operand byte that is missing first is always the one at N. -/
theorem fetch_past_end {s : State} {o : Opcode} (hpc : s.pc < s.config.memSize)
    (ho : s.config.opcodeMap.opcodeOf (s.mem.read s.pc) = some o)
    (hlen : s.config.memSize < s.pc + o.length) :
    fetch s = .error (.addressFault s.config.memSize) := by
  rw [fetch, State.memRead_nat hpc]
  simp only [bind, Except.bind, ho]
  cases hf : o.format <;> simp only [Opcode.length, hf, InstrFormat.length] at hlen
  case n => omega
  case rb => exact fetchTwo_past_end o (by omega)
  all_goals exact fetchOne_past_end o (by omega)

/-! ## What an instruction can do -/

/-- The states an instruction can commit, by the group it belongs to. Which value is written and which
raw result is formed is left open; what is written, the guards and the pc are not. -/
inductive Commits (s : State) (i : Instr) : State → Prop
  | halt (hi : i = .stop) : Commits s i s.halt
  | move {k : Nat} {rd : Reg} (hi : movDest i = some k) (hrd : regOfIndex k = some rd) (v : Byte) :
      Commits s i ((s.setReg rd v).advance i.length)
  | arith {k : Nat} {rd : Reg} (hi : arithDest i = some k) (hrd : regOfIndex k = some rd) (raw : Int) :
      Commits s i (s.commitArith rd raw i.length)
  | compare (hi : isCmp i = true) (raw : Int) : Commits s i (s.commitCompare raw i.length)
  | jump (hi : jumpCondition s i = some true) (ht : jumpTarget s i < s.config.memSize) :
      Commits s i (s.setPc (jumpTarget s i))
  | fallThrough (hi : jumpCondition s i = some false) : Commits s i (s.advance i.length)
  | push {v : Byte} {t : State} (hi : isPush i = true) (ht : s.push v = .ok t) :
      Commits s i (t.advance i.length)
  | pop {k : Nat} {rd : Reg} {t : State} (hi : popDest i = some k) (hrd : regOfIndex k = some rd)
      (ht : s.pop rd = .ok t) : Commits s i (t.advance i.length)

/-- How an instruction ends: it commits, or it takes a fault. -/
def Ends (s : State) (i : Instr) (t : State) : Prop :=
  Commits s i t ∨ ∃ f, t = s.takeFault f

theorem operandReg_dest {d r : Nibble} {s : State} {p : Reg × Byte} (h : operandReg d r s = .ok p) :
    regOfIndex d.toNat = some p.1 := by
  obtain ⟨rd, rs, hd, -, rfl⟩ := operandReg_eq_ok.1 h
  exact hd

theorem operandRegaddr_dest {d r : Nibble} {s : State} {p : Reg × Byte}
    (h : operandRegaddr d r s = .ok p) : regOfIndex d.toNat = some p.1 := by
  obtain ⟨rd, rs, hd, -, -, rfl⟩ := operandRegaddr_eq_ok.1 h
  exact hd

theorem operandNum_dest {d n : Byte} {p : Reg × Byte} (h : operandNum d n = .ok p) :
    regOfIndex d.toNat = some p.1 := by
  obtain ⟨rd, hd, rfl⟩ := operandNum_eq_ok.1 h
  exact hd

theorem operandAddr_dest {d a : Byte} {s : State} {p : Reg × Byte} (h : operandAddr d a s = .ok p) :
    regOfIndex d.toNat = some p.1 := by
  obtain ⟨rd, hd, -, rfl⟩ := operandAddr_eq_ok.1 h
  exact hd

theorem operandSole_dest {r : Byte} {s : State} {p : Reg × Byte} (h : operandSole r s = .ok p) :
    regOfIndex r.toNat = some p.1 := by
  obtain ⟨rr, hr, rfl⟩ := operandSole_eq_ok.1 h
  exact hr

theorem operandSole_value {r : Byte} {s : State} {p : Reg × Byte} (h : operandSole r s = .ok p) :
    p.2 = x s r.toNat := by
  obtain ⟨rr, hr, rfl⟩ := operandSole_eq_ok.1 h
  exact (x_of_regOfIndex s hr).symm

section Groups

variable {s t : State} {i : Instr} {k : Nat} {p : Except FaultRecord (Reg × Byte)}

/-- An instruction ends well when every state its phases commit is one it can commit. -/
theorem Ends.of_conclude {r : Except FaultRecord State} (h : conclude s r = .next t)
    (hr : r = .ok t → Commits s i t) : Ends s i t :=
  (conclude_eq_next.1 h).imp hr fun ⟨f, _, ht⟩ => ⟨f, ht⟩

/-- The same for phases that begin with an operand. -/
theorem Ends.of_bind {α : Type} {q : Except FaultRecord α} {g : α → Except FaultRecord State}
    (h : conclude s (q >>= g) = .next t) (hg : ∀ a, q = .ok a → g a = .ok t → Commits s i t) :
    Ends s i t :=
  .of_conclude h fun hr =>
    let ⟨a, ha, hga⟩ := bind_eq_ok.1 hr
    hg a ha hga

theorem Ends.of_move (hi : movDest i = some k) (hp : ∀ a, p = .ok a → regOfIndex k = some a.1)
    (h : conclude s (p >>= fun a => pure ((s.setReg a.1 a.2).advance i.length)) = .next t) :
    Ends s i t :=
  .of_bind h fun a ha ht => pure_eq_ok.1 ht ▸ .move hi (hp a ha) a.2

theorem Ends.of_arith {raw : Reg × Byte → Int} (hi : arithDest i = some k)
    (hp : ∀ a, p = .ok a → regOfIndex k = some a.1)
    (h : conclude s (p >>= fun a => pure (s.commitArith a.1 (raw a) i.length)) = .next t) :
    Ends s i t :=
  .of_bind h fun a ha ht => pure_eq_ok.1 ht ▸ .arith hi (hp a ha) (raw a)

theorem Ends.of_compare {raw : Reg × Byte → Int} (hi : isCmp i = true)
    (h : conclude s (p >>= fun a => pure (s.commitCompare (raw a) i.length)) = .next t) :
    Ends s i t :=
  .of_bind h fun a _ ht => pure_eq_ok.1 ht ▸ .compare hi (raw a)

/-- JMP is the jump on the condition true. -/
theorem Commits.of_jumpIf {c : Bool} {v : Byte} (hc : jumpCondition s i = some c)
    (hv : jumpTarget s i = v.toNat) (hlen : i.length = 2) (h : s.jumpIf c v = .ok t) :
    Commits s i t := by
  rcases State.jumpIf_eq_ok.1 h with ⟨rfl, hN, rfl⟩ | ⟨rfl, rfl⟩
  · exact hv ▸ .jump hc (hv ▸ hN)
  · exact hlen ▸ .fallThrough hc

theorem Ends.of_jumpReg {r : Byte} {c : Bool} (hc : jumpCondition s i = some c)
    (hv : jumpTarget s i = (x s r.toNat).toNat) (hlen : i.length = 2)
    (h : conclude s (operandSole r s >>= fun a => s.jumpIf c a.2) = .next t) : Ends s i t :=
  .of_bind h fun _ ha => .of_jumpIf hc (operandSole_value ha ▸ hv) hlen

theorem Ends.of_jumpAddr {a : Byte} {c : Bool} (hc : jumpCondition s i = some c)
    (hv : jumpTarget s i = a.toNat) (hlen : i.length = 2)
    (h : conclude s (s.jumpIf c a) = .next t) : Ends s i t :=
  .of_conclude h (.of_jumpIf hc hv hlen)

theorem Commits.of_push {v : Byte} (hi : isPush i = true) (hlen : i.length = 2)
    (h : (s.push v >>= fun u => pure (u.advance 2)) = .ok t) : Commits s i t := by
  obtain ⟨u, hu, ht⟩ := bind_eq_ok.1 h
  exact pure_eq_ok.1 ht ▸ hlen ▸ .push hi hu

end Groups

/-- What an instruction can do: commit as its group does, or take a fault. -/
theorem exec_cases {i : Instr} {s t : State} (h : exec i s = .next t) : Ends s i t := by
  cases i with
  | stop => cases h; exact .inl (.halt rfl)
  | movRegToReg d r => exact .of_move rfl (fun _ => operandReg_dest) h
  | movRegaddrToReg d r => exact .of_move rfl (fun _ => operandRegaddr_dest) h
  | movNumToReg d n => exact .of_move rfl (fun _ => operandNum_dest) h
  | movAddrToReg d a => exact .of_move rfl (fun _ => operandAddr_dest) h
  | addRegToReg d r | subRegFromReg d r => exact .of_arith rfl (fun _ => operandReg_dest) h
  | addRegaddrToReg d r | subRegaddrFromReg d r =>
    exact .of_arith rfl (fun _ => operandRegaddr_dest) h
  | addNumToReg d n | subNumFromReg d n => exact .of_arith rfl (fun _ => operandNum_dest) h
  | addAddrToReg d a | subAddrFromReg d a => exact .of_arith rfl (fun _ => operandAddr_dest) h
  | incReg r | decReg r => exact .of_arith rfl (fun _ => operandSole_dest) h
  | cmpRegWithReg d r | cmpRegaddrWithReg d r | cmpNumWithReg d n | cmpAddrWithReg d a =>
    exact .of_compare rfl h
  | jmpReg r | jcReg r | jncReg r | jzReg r | jnzReg r => exact .of_jumpReg rfl rfl rfl h
  | jmpAddr a | jcAddr a | jncAddr a | jzAddr a | jnzAddr a => exact .of_jumpAddr rfl rfl rfl h
  | pushReg r => exact .of_bind h fun _ _ => .of_push rfl rfl
  | pushRegaddr r =>
    refine .of_bind h fun _ _ hread => ?_
    obtain ⟨v, -, hpush⟩ := bind_eq_ok.1 hread
    exact .of_push rfl rfl hpush
  | pushAddr a => exact .of_bind h fun _ _ => .of_push rfl rfl
  | pushNum n => exact .of_conclude h (.of_push rfl rfl)
  | popReg r =>
    refine .of_bind h fun rd hrd hpop => ?_
    obtain ⟨u, hu, ht⟩ := bind_eq_ok.1 hpop
    exact pure_eq_ok.1 ht ▸ .pop rfl (regCheck_eq_ok.1 hrd) hu

theorem conclude_next (s : State) (r : Except FaultRecord State) : ∃ t, conclude s r = .next t := by
  cases r with
  | ok t => exact ⟨t, rfl⟩
  | error f => exact ⟨s.takeFault f, rfl⟩

/-- Every instruction gives a next state: none is refused, and none answers a fault outcome. -/
theorem exec_next (i : Instr) (s : State) : ∃ t, exec i s = .next t := by
  cases i with
  | stop => exact ⟨s.halt, rfl⟩
  | _ => exact conclude_next s _

/-- What the tick of a Ready machine can do: halt past the end of memory, take a fault of the fetch, or
end as the instruction fetched ends. -/
theorem step_ready_cases {s : State} (hs : s.status = .ready) :
    ∃ t, step s = .next t ∧
      ((s.config.memSize ≤ s.pc ∧ t = s.halt) ∨ (∃ f, fetch s = .error f ∧ t = s.takeFault f) ∨
        ∃ i, fetch s = .ok i ∧ Ends s i t) := by
  rcases Nat.lt_or_ge s.pc s.config.memSize with hpc | hpc
  · cases hf : fetch s with
    | error f => exact ⟨_, step_of_fetch_error hs hpc hf, .inr (.inl ⟨f, rfl, rfl⟩)⟩
    | ok i =>
      obtain ⟨t, ht⟩ := exec_next i s
      exact ⟨t, (step_of_fetch_ok hs hpc hf).trans ht, .inr (.inr ⟨i, rfl, exec_cases ht⟩)⟩
  · exact ⟨_, step_past_end hs hpc, .inl ⟨hpc, rfl⟩⟩

/-! ## What a commit leaves, field by field -/

/-- STOP and the jumps are in none of the other groups. -/
theorem sequential_of_group (s : State) (i : Instr) (h : (movDest i).isSome ∨ (arithDest i).isSome ∨
    isCmp i = true ∨ isPush i = true ∨ (popDest i).isSome) :
    i ≠ .stop ∧ jumpCondition s i = none := by
  cases i <;> simp_all [movDest, arithDest, isCmp, isPush, popDest, jumpCondition]

/-- No step changes the parameters. -/
theorem Commits.config {s t : State} {i : Instr} (h : Commits s i t) : t.config = s.config := by
  cases h with
  | halt | move | arith | compare | jump | fallThrough => rfl
  | push _ ht => obtain ⟨-, -, rfl⟩ := State.push_eq_ok.1 ht; rfl
  | pop _ _ ht => obtain ⟨-, -, rfl⟩ := State.pop_eq_ok.1 ht; rfl

/-- Only STOP writes the machine state. -/
theorem Commits.status {s t : State} {i : Instr} (h : Commits s i t) :
    t.status = s.status ∨ t.status = .halted := by
  cases h with
  | halt => exact .inr rfl
  | move | arith | compare | jump | fallThrough => exact .inl rfl
  | push _ ht => obtain ⟨-, -, rfl⟩ := State.push_eq_ok.1 ht; exact .inl rfl
  | pop _ _ ht => obtain ⟨-, -, rfl⟩ := State.pop_eq_ok.1 ht; exact .inl rfl

theorem ne_stop_of_jumpCondition {s : State} {i : Instr} {c : Bool}
    (h : jumpCondition s i = some c) : i ≠ .stop := by
  rintro rfl
  simp [jumpCondition] at h

/-- Where IP is after a commit: at the STOP, past the instruction, or at the target of a taken jump,
which is below N (10_state R25). -/
theorem Commits.pc_cases {s t : State} {i : Instr} (h : Commits s i t) :
    (i = .stop ∧ t.pc = s.pc) ∨
    (i ≠ .stop ∧ jumpCondition s i = none ∧ t.pc = s.pc + i.length) ∨
    (jumpCondition s i = some false ∧ t.pc = s.pc + i.length) ∨
    (jumpCondition s i = some true ∧ t.pc = jumpTarget s i ∧ t.pc < s.config.memSize) := by
  cases h with
  | halt hi => exact .inl ⟨hi, rfl⟩
  | jump hi ht => exact .inr (.inr (.inr ⟨hi, rfl, ht⟩))
  | fallThrough hi => exact .inr (.inr (.inl ⟨hi, rfl⟩))
  | move hi | arith hi | compare hi =>
    obtain ⟨hstop, hjump⟩ := sequential_of_group s i (by simp [hi])
    exact .inr (.inl ⟨hstop, hjump, rfl⟩)
  | push hi ht =>
    obtain ⟨hstop, hjump⟩ := sequential_of_group s i (by simp [hi])
    obtain ⟨-, -, rfl⟩ := State.push_eq_ok.1 ht
    exact .inr (.inl ⟨hstop, hjump, rfl⟩)
  | pop hi _ ht =>
    obtain ⟨hstop, hjump⟩ := sequential_of_group s i (by simp [hi])
    obtain ⟨-, -, rfl⟩ := State.pop_eq_ok.1 ht
    exact .inr (.inl ⟨hstop, hjump, rfl⟩)

/-- The instruction fetched lies within memory. -/
theorem fetch_ok_length {s : State} {i : Instr} (h : fetch s = .ok i) :
    s.pc + i.length ≤ s.config.memSize := by
  obtain ⟨-, o, -, hlen, hi⟩ := fetch_eq_ok.1 h
  have ho : i.opcode = o := by
    rw [hi]
    cases o.format <;> exact assemble_opcode ..
  rwa [Instr.length, ho]

/-- IP never passes N (10_state R25). -/
theorem Commits.pc_le {s t : State} {i : Instr} (h : Commits s i t) (hf : fetch s = .ok i) :
    t.pc ≤ s.config.memSize := by
  have hlen := fetch_ok_length hf
  rcases h.pc_cases with ⟨-, hp⟩ | ⟨-, -, hp⟩ | ⟨-, hp⟩ | ⟨-, -, hp⟩ <;> omega

/-- An instruction that leaves the machine not Faulted has committed. -/
theorem commits_of_step {s t : State} {i : Instr} (hs : s.status = .ready)
    (hpc : s.pc < s.config.memSize) (hf : fetch s = .ok i) (h : step s = .next t)
    (ht : t.status ≠ .faulted) : Commits s i t := by
  rw [step_of_fetch_ok hs hpc hf] at h
  rcases exec_cases h with hc | ⟨f, rfl⟩
  · exact hc
  · exact absurd rfl ht

/-! ## The FLAGS byte and the fault code -/

/-- FLAGS = fault<<2 | zero<<1 | carry, bit by bit (10_state R33). -/
theorem flagsByte_bits (s : State) : s.flagsByte.getLsbD 0 = s.carry ∧
    s.flagsByte.getLsbD 1 = s.zero ∧ s.flagsByte.getLsbD 2 = s.faultFlag ∧ s.flagsByte.toNat < 8 := by
  unfold State.flagsByte
  cases s.carry <;> cases s.zero <;> cases s.faultFlag <;> decide

theorem faultCode_none {s : State} (h : s.faultInfo = none) : s.faultCode = 0 := by
  rw [State.faultCode, h]

theorem faultCode_some {s : State} {f : FaultRecord} (h : s.faultInfo = some f) :
    s.faultCode = f.code := by
  rw [State.faultCode, h]

end Sys2Proof.Machine
end

section
/-! The statements of the state family (10_state.md). -/

open Sys2Proof Sys2Proof.Machine Sys2Proof.Claims

/-- Settles O43: `Commits.pc_cases` says where IP goes, and `fetch_past_end` which byte is missing. -/
theorem pcAfterInstruction : Obligations.PcAfterInstruction := by
  intro s hs hpc
  refine ⟨fun t i hf h ht => ?_, fun o ho hlen => ?_⟩
  · have hc := commits_of_step hs hpc hf h ht
    have hle := hc.pc_le hf
    have hend (hN : t.pc = s.config.memSize) (hr : t.status = .ready) :
        tickResponse (step t) = some .halted := by
      rw [step_past_end hr (hc.config ▸ hN.ge)]
      exact tickResponse_halted t.halt_status
    rcases hc.pc_cases with ⟨rfl, hp⟩ | ⟨hi, hj, hp⟩ | ⟨hj, hp⟩ | ⟨hj, hp, hlt⟩
    · exact ⟨fun _ => hp, absurd rfl, by simp [jumpCondition], by simp [jumpCondition], hle, hend⟩
    · exact ⟨(absurd · hi), fun _ _ => hp, by simp [hj], by simp [hj], hle, hend⟩
    · exact ⟨(absurd · (ne_stop_of_jumpCondition hj)), by simp [hj], fun _ => hp, by simp [hj], hle, hend⟩
    · exact ⟨(absurd · (ne_stop_of_jumpCondition hj)), by simp [hj], by simp [hj], fun _ => ⟨hp, hlt⟩,
        hle, hend⟩
  · rw [← takeFault_eq_faulted]
    exact step_of_fetch_error hs hpc (fetch_past_end hpc ho hlen)

/-- Settles O51, by the machine state and then by `step_ready_cases`. -/
theorem tickAnswers : Obligations.TickAnswers := by
  intro s
  refine ⟨tickResponse_step_of_faulted, fun hs => ?_, fun hs => ?_⟩
  · have h := step_of_halted hs
    exact ⟨h ▸ tickResponse_halted hs, h⟩
  · obtain ⟨t, h, hcases⟩ := step_ready_cases hs
    refine ⟨t, h, ?_⟩
    rw [h]
    rcases hcases with ⟨-, rfl⟩ | ⟨f, -, rfl⟩ | ⟨i, -, hc | ⟨f, rfl⟩⟩
    · exact .inr (.inl ⟨rfl, rfl⟩)
    · exact .inr (.inr ⟨rfl, f, rfl, rfl⟩)
    · rcases hc.status with ht | ht
      · exact .inl ⟨ht.trans hs, tickResponse_ready (ht.trans hs)⟩
      · exact .inr (.inl ⟨ht, tickResponse_halted ht⟩)
    · exact .inr (.inr ⟨rfl, f, rfl, rfl⟩)

/-- Settles O1: reset writes every field, whatever the state was. -/
theorem resetState : Obligations.ResetState := by
  refine ⟨fun s => ⟨fun q => ?_, rfl, rfl, rfl, rfl, rfl, rfl, rfl, fun a _ => rfl, rfl⟩, rfl, rfl, rfl⟩
  cases q <;> rfl

/-- Settles O58. -/
theorem observationCodes : Obligations.ObservationCodes := by
  refine ⟨fun s => ?_, fun _ => ⟨rfl, rfl⟩, fun _ => ⟨rfl, rfl⟩, fun _ => ⟨rfl, rfl⟩,
    fun s hs => ⟨tickResponse_step_of_faulted hs, rfl⟩⟩
  obtain ⟨hcarry, hzero, hfault, hbound⟩ := flagsByte_bits s
  exact ⟨hcarry, hzero, hfault, hbound, faultCode_none, fun _ => faultCode_some⟩
end

section
/-! Memory rules: what a read answers after a write, through MemRead, MemWrite and the loader port. -/

namespace Sys2Proof.Machine

/-- MemWrite inside memory. -/
theorem State.memWrite_of_mem {s : State} {a : Int} (h0 : 0 ≤ a) (hN : a < s.config.memSize) (v : Byte) :
    s.memWrite a v = .ok { s with mem := s.mem.write a.toNat v } :=
  State.memWrite_eq_ok.2 ⟨h0, hN, rfl⟩

/-- The byte just written is the one read. -/
theorem State.memRead_write_same {s : State} {a : Int} (h0 : 0 ≤ a) (hN : a < s.config.memSize)
    (v : Byte) : { s with mem := s.mem.write a.toNat v }.memRead a = .ok v :=
  State.memRead_eq_ok.2 ⟨h0, hN, Memory.read_write_same s.mem a.toNat v⟩

/-- Every other address answers as before, the ones outside memory with the same fault. -/
theorem State.memRead_write_other (s : State) {a b : Int} (h0 : 0 ≤ a) (hne : b ≠ a) (v : Byte) :
    { s with mem := s.mem.write a.toNat v }.memRead b = s.memRead b := by
  unfold State.memRead
  split
  · rfl
  · next hb =>
    have hcell : b.toNat ≠ a.toNat := by omega
    exact congrArg Except.ok (Memory.read_write_other s.mem v hcell)

/-- The loader's write of a byte inside memory stores the value clamped (10_state R40). -/
theorem State.loaderWrite_of_mem {s : State} {a : Int} (h0 : 0 ≤ a) (hN : a < s.config.memSize) (v : Int) :
    s.loaderWrite a v = .ok { s with mem := s.mem.write a.toNat (clampByte v) } :=
  if_neg (by omega)

/-- A value above a byte's range clamps to 255 (10_state R40). -/
theorem clampByte_of_gt {v : Int} (h : 255 < v) : clampByte v = 255 := by
  have hmin : min (max v 0) 255 = 255 := by omega
  rw [clampByte, hmin]
  rfl

end Sys2Proof.Machine
end

section
/-! The statements of the memory family (20_memory.md). -/

open Sys2Proof Sys2Proof.Machine Sys2Proof.Claims

/-- Settles O8: the read rules after a write, at the same and at another address; outside memory both
operations fault. -/
theorem memoryLaws : Obligations.MemoryLaws := by
  intro s a
  refine ⟨fun h0 hN v => ?_, fun hout => ?_, fun h0 hN v hv => ?_⟩
  · exact ⟨_, State.memWrite_of_mem h0 hN v, State.memRead_write_same h0 hN v,
      fun b hne => State.memRead_write_other s h0 hne v⟩
  · exact ⟨State.memRead_eq_error.2 ⟨hout, rfl⟩, fun v => State.memWrite_eq_error.2 ⟨hout, rfl⟩⟩
  · have hread := State.memRead_write_same h0 hN (clampByte v)
    exact ⟨_, State.loaderWrite_of_mem h0 hN v, clampByte_of_gt hv ▸ hread⟩
end

section
/-! Opcode map rules: what the two lookups answer, by the rows of the map. -/

namespace Sys2Proof

/-- A byte is unknown when it stands in no row. -/
theorem OpcodeMap.opcodeOf_eq_none {m : OpcodeMap} {b : Byte} :
    m.opcodeOf b = none ↔ b ∉ m.map Prod.snd := by
  induction m with
  | nil => simp [OpcodeMap.opcodeOf]
  | cons row rest ih =>
    by_cases h : row.2 = b
    · simp [OpcodeMap.opcodeOf, h]
    · simp [OpcodeMap.opcodeOf, h, Ne.symm h, ih]

/-- The opcode found for a byte stands in a row with it. -/
theorem OpcodeMap.mem_of_opcodeOf {m : OpcodeMap} {b : Byte} {o : Opcode}
    (h : m.opcodeOf b = some o) : (o, b) ∈ m := by
  induction m with
  | nil => exact absurd h (by simp [OpcodeMap.opcodeOf])
  | cons row rest ih =>
    by_cases hb : row.2 = b
    · simp only [OpcodeMap.opcodeOf, if_pos hb, Option.some.injEq] at h
      simp [← h, ← hb]
    · simp only [OpcodeMap.opcodeOf, if_neg hb] at h
      exact List.mem_cons_of_mem row (ih h)

/-- Where no opcode has two rows, the byte of an opcode is the one in its row. -/
theorem OpcodeMap.byteOf_of_mem {m : OpcodeMap} {b : Byte} {o : Opcode}
    (hm : (m.map Prod.fst).Nodup) (h : (o, b) ∈ m) : m.byteOf o = b := by
  induction m with
  | nil => exact absurd h List.not_mem_nil
  | cons row rest ih =>
    obtain ⟨hnew, hrest⟩ := List.nodup_cons.1 hm
    rcases List.mem_cons.1 h with rfl | hmem
    · exact if_pos rfl
    · have hne : row.1 ≠ o := fun he => hnew (he ▸ List.mem_map_of_mem hmem)
      exact (if_neg hne).trans (ih hrest hmem)

theorem Opcode.all_nodup : Opcode.all.Nodup := by decide

/-- A legal map lists the 34 opcodes in their order and gives no byte twice. -/
theorem OpcodeMap.legal_iff {m : OpcodeMap} :
    m.legal = true ↔ m.map Prod.fst = Opcode.all ∧ (m.map Prod.snd).Nodup := by
  simp [OpcodeMap.legal]

/-- Under a legal map the opcode found for a byte is encoded by that byte. -/
theorem OpcodeMap.byteOf_of_opcodeOf {m : OpcodeMap} {b : Byte} {o : Opcode}
    (hm : m.legal = true) (h : m.opcodeOf b = some o) : m.byteOf o = b :=
  OpcodeMap.byteOf_of_mem ((OpcodeMap.legal_iff.1 hm).1 ▸ Opcode.all_nodup)
    (OpcodeMap.mem_of_opcodeOf h)

/-- Under a legal map the opcode found for a byte is one of the 34. -/
theorem OpcodeMap.mem_all_of_opcodeOf {m : OpcodeMap} {b : Byte} {o : Opcode}
    (hm : m.legal = true) (h : m.opcodeOf b = some o) : o ∈ Opcode.all :=
  (OpcodeMap.legal_iff.1 hm).1 ▸ List.mem_map_of_mem (OpcodeMap.mem_of_opcodeOf h)

theorem OpcodeMap.default_legal : OpcodeMap.default.legal = true := by decide

/-- The default map assigns the bytes from 0 up, in order (30_encoding R95). -/
theorem OpcodeMap.default_bytes :
    OpcodeMap.default.map Prod.snd = (List.range 34).map (BitVec.ofNat 8) := by decide

theorem OpcodeMap.mem_default_bytes {b : Byte} :
    b ∈ OpcodeMap.default.map Prod.snd ↔ b.toNat < 34 := by
  rw [OpcodeMap.default_bytes, List.mem_map]
  constructor
  · rintro ⟨k, hk, rfl⟩
    exact (Nat.mod_le k (2 ^ 8)).trans_lt (List.mem_range.1 hk)
  · exact fun h => ⟨b.toNat, List.mem_range.2 h, by simp⟩

/-- The unknown opcodes of the default map (30_encoding R96). -/
theorem OpcodeMap.default_opcodeOf_eq_none {b : Byte} :
    OpcodeMap.default.opcodeOf b = none ↔ 34 ≤ b.toNat := by
  rw [OpcodeMap.opcodeOf_eq_none, OpcodeMap.mem_default_bytes, Nat.not_lt]

end Sys2Proof
end

section
/-! The statements of the encoding family (30_encoding.md). -/

open Sys2Proof

/-- Settles O57, by what the default map answers for the byte: an opcode, which a legal map encodes by
that byte, or none. -/
theorem decoderTotal : Obligations.DecoderTotal := by
  refine ⟨rfl, fun b => ?_⟩
  cases hb : OpcodeMap.default.opcodeOf b with
  | none => exact .inr ⟨OpcodeMap.default_opcodeOf_eq_none.1 hb, rfl⟩
  | some o =>
    have hlt : b.toNat < 34 := by
      by_contra h
      simp [OpcodeMap.default_opcodeOf_eq_none.2 (Nat.not_lt.1 h)] at hb
    exact .inl ⟨hlt, o, OpcodeMap.mem_all_of_opcodeOf OpcodeMap.default_legal hb, rfl,
      OpcodeMap.byteOf_of_opcodeOf OpcodeMap.default_legal hb⟩
end

section
/-! How the tick of a Ready machine ends in Faulted or in Halted. -/

namespace Sys2Proof.Machine

/-- A Ready machine that a tick leaves Faulted has taken a fault, and has done nothing else. -/
theorem takeFault_of_step_faulted {s t : State} (hs : s.status = .ready) (h : step s = .next t)
    (ht : t.status = .faulted) : ∃ f, t = s.takeFault f := by
  obtain ⟨u, hu, hcases⟩ := step_ready_cases hs
  cases hu.symm.trans h
  rcases hcases with ⟨-, rfl⟩ | ⟨f, -, rfl⟩ | ⟨i, -, hc | hfault⟩
  · simp at ht
  · exact ⟨f, rfl⟩
  · have hne : t.status ≠ .faulted := by
      rcases hc.status with hst | hst <;> simp [hst, hs]
    exact absurd ht hne
  · exact hfault

/-- STOP is fetched from its one byte. -/
theorem fetch_of_stop {s : State} (hpc : s.pc < s.config.memSize)
    (ho : s.config.opcodeMap.opcodeOf (s.mem.read s.pc) = some .stop) : fetch s = .ok .stop :=
  fetch_eq_ok.2 ⟨hpc, .stop, ho, hpc, rfl⟩

/-- A Ready machine halts past the end of memory and at a STOP, the two places where a Halted machine can
stand (40_execution R121, 45_stop R300). -/
theorem step_halts {s : State} (hs : s.status = .ready) (h : s.config.memSize ≤ s.pc ∨
    s.config.opcodeMap.opcodeOf (s.mem.read s.pc) = some .stop) : step s = .next s.halt := by
  rcases Nat.lt_or_ge s.pc s.config.memSize with hpc | hpc
  · have ho := h.resolve_left hpc.not_ge
    exact step_of_fetch_ok hs hpc (fetch_of_stop hpc ho)
  · exact step_past_end hs hpc

/-- Halting again a Halted machine that was made Ready gives it back. -/
theorem State.halt_of_halted {s : State} (hs : s.status = .halted) :
    { s with status := .ready }.halt = s := by
  rw [State.halt, ← hs]

end Sys2Proof.Machine
end

section
/-! The statements of the execution family (40_execution.md). -/

open Sys2Proof Sys2Proof.Machine

/-- Settles O45: a tick that faults is `takeFault`, which writes the machine state and the record only. -/
theorem preciseFault : Obligations.PreciseFault := by
  intro s t hs h ht
  obtain ⟨f, rfl⟩ := takeFault_of_step_faulted hs h ht
  exact ⟨f, rfl, rfl, h ▸ tickResponse_takeFault s f⟩

/-- Settles O47; the invariant says where a Halted machine stands, and `step_halts` that it halts there
again. -/
theorem haltChecks : Obligations.HaltChecks := by
  intro s
  refine ⟨fun hs hpc m => step_past_end (s := { s with mem := m }) hs hpc, fun hs => ?_, fun hs hinv => ?_⟩
  · have h := step_of_halted hs
    exact ⟨h, h ▸ tickResponse_halted hs⟩
  · have h := step_halts (s := { s with status := .ready }) rfl (hinv.halted_at hs)
    rwa [State.halt_of_halted hs] at h
end

section
/-! Normalize: its value by the branch of the raw result (41_arithmetic R150), and its value and flags on
the sum and on the difference of two bytes (R153). -/

namespace Sys2Proof.Machine

open Sys2Proof.Claims

/-! ## By the branch of the raw result -/

/-- A byte made of an integer 0..255 is that number. -/
theorem toNat_ofInt_of_byte {r : Int} (h0 : 0 ≤ r) (h1 : r < 256) :
    ((BitVec.ofInt 8 r).toNat : Int) = r := by
  rw [BitVec.toNat_ofInt]
  omega

theorem normalizeRaw_of_ge (rule : NegWrapRule) {r : Int} (h : 256 ≤ r) :
    normalizeRaw rule r = { value := BitVec.ofInt 8 (r % 256), carry := true, zero := false } :=
  if_pos h

theorem normalizeRaw_of_neg (rule : NegWrapRule) {r : Int} (h : r < 0) :
    normalizeRaw rule r = { value := BitVec.ofInt 8 (negWrap rule r), carry := true, zero := false } := by
  rw [normalizeRaw, if_neg (by omega), if_neg (by omega), if_pos h]

/-- Either rule wraps a negative raw result to a byte. -/
theorem negWrap_range (rule : NegWrapRule) (r : Int) : 0 ≤ negWrap rule r ∧ negWrap rule r < 256 := by
  cases rule <;> simp only [negWrap] <;> omega

/-- The value of a negative raw result, as a number. -/
theorem normalizeRaw_value_of_neg (rule : NegWrapRule) {r : Int} (h : r < 0) :
    ((normalizeRaw rule r).value.toNat : Int) = negWrap rule r := by
  obtain ⟨h0, h1⟩ := negWrap_range rule r
  rw [normalizeRaw_of_neg rule h]
  exact toNat_ofInt_of_byte h0 h1

/-- carry and zero would need a raw result that is 0 and leaves 0..255 (R152). -/
theorem normalizeRaw_flags_exclusive (rule : NegWrapRule) (r : Int) :
    ((normalizeRaw rule r).carry && (normalizeRaw rule r).zero) = false := by
  rw [normalizeRaw_carry, normalizeRaw_zero, ← Bool.decide_and, decide_eq_false_iff_not]
  omega

/-! ## The sum of two bytes -/

theorem normalizeRaw_value_add (rule : NegWrapRule) {p q : Nat} (h : p + q ≤ 510) :
    (normalizeRaw rule ((p : Int) + q)).value =
      BitVec.ofNat 8 (if p + q ≤ 255 then p + q else p + q - 256) := by
  split
  · rw [normalizeRaw_value_of_byte rule (by omega) (by omega), ← Nat.cast_add, BitVec.ofInt_natCast]
  · have hwrap : ((p : Int) + q) % 256 = (p + q - 256 : Nat) := by omega
    rw [normalizeRaw_of_ge rule (by omega), hwrap, BitVec.ofInt_natCast]

theorem normalizeRaw_carry_add (rule : NegWrapRule) (p q : Nat) :
    (normalizeRaw rule ((p : Int) + q)).carry = decide (256 ≤ p + q) := by
  rw [normalizeRaw_carry, decide_eq_decide]
  omega

theorem normalizeRaw_zero_add (rule : NegWrapRule) (p q : Nat) :
    (normalizeRaw rule ((p : Int) + q)).zero = decide (p + q = 0) := by
  rw [normalizeRaw_zero, decide_eq_decide]
  omega

/-! ## The difference of two bytes -/

theorem normalizeRaw_value_sub (rule : NegWrapRule) {p q : Nat} (hp : p ≤ 255) (hq : q ≤ 255) :
    (normalizeRaw rule ((p : Int) - q)).value = difference rule p q := by
  unfold difference
  split
  · next hle =>
    rw [normalizeRaw_value_of_byte rule (by omega) (by omega), ← Nat.cast_sub hle, BitVec.ofInt_natCast]
  · rw [normalizeRaw_of_neg rule (by omega)]
    cases rule with
    | docFormula =>
      have hwrap : negWrap .docFormula ((p : Int) - q) = (255 - (q - p) : Nat) := by
        rw [negWrap]; omega
      rw [hwrap, BitVec.ofInt_natCast]
    | mod256 =>
      have hwrap : negWrap .mod256 ((p : Int) - q) = (256 - (q - p) : Nat) := by
        rw [negWrap]; omega
      rw [hwrap, BitVec.ofInt_natCast]

theorem normalizeRaw_carry_sub (rule : NegWrapRule) {p q : Nat} (hp : p ≤ 255) :
    (normalizeRaw rule ((p : Int) - q)).carry = decide (p < q) := by
  rw [normalizeRaw_carry, decide_eq_decide]
  omega

theorem normalizeRaw_zero_sub (rule : NegWrapRule) (p q : Nat) :
    (normalizeRaw rule ((p : Int) - q)).zero = decide (p = q) := by
  rw [normalizeRaw_zero, decide_eq_decide]
  omega

/-- A difference that is not negative is the number itself. -/
theorem toNat_difference_of_le (rule : NegWrapRule) {p q : Nat} (hp : p ≤ 255) (h : q ≤ p) :
    (difference rule p q).toNat = p - q := by
  rw [difference.eq_def, if_pos h, BitVec.toNat_ofNat]
  omega

/-! ## The commits of a sum and of a difference -/

theorem byte_le (b : Byte) : b.toNat ≤ 255 := Nat.le_of_lt_succ b.isLt

/-- The commit of ADD and INC is the ADD row of R153. -/
theorem commitArith_add (s : State) (d : Nat) {y : Nat} (hy : y ≤ 255) (len : Nat) :
    s.commitArith (regNamed d) (((s.getReg (regNamed d)).toNat : Int) + y) len = addTo s d y len := by
  have hp := byte_le (x s d)
  have hvalue := normalizeRaw_value_add s.config.negWrap (p := (x s d).toNat) (q := y) (by omega)
  have hcarry := normalizeRaw_carry_add s.config.negWrap (x s d).toNat y
  have hzero := normalizeRaw_zero_add s.config.negWrap (x s d).toNat y
  rw [addTo, ← hvalue, ← hcarry, ← hzero]
  rfl

/-- The commit of SUB and DEC is the SUB row of R153. -/
theorem commitArith_sub (s : State) (d : Nat) {y : Nat} (hy : y ≤ 255) (len : Nat) :
    s.commitArith (regNamed d) (((s.getReg (regNamed d)).toNat : Int) - y) len = subFrom s d y len := by
  have hp := byte_le (x s d)
  rw [subFrom, ← normalizeRaw_value_sub s.config.negWrap hp hy,
    ← normalizeRaw_carry_sub s.config.negWrap hp, ← normalizeRaw_zero_sub s.config.negWrap]
  rfl

/-- The commit of CMP is the SUB row of R153 without the writeback. -/
theorem commitCompare_sub (s : State) (d y len : Nat) :
    s.commitCompare (((s.getReg (regNamed d)).toNat : Int) - y) len = compareWith s d y len := by
  rw [compareWith, ← normalizeRaw_carry_sub s.config.negWrap (byte_le (x s d)),
    ← normalizeRaw_zero_sub s.config.negWrap]
  rfl

end Sys2Proof.Machine
end

section
/-! How an instruction's phases end, operand by operand: the register checks in their order, then the
data read, then the commit (40_execution R126); and the tick of an opcode byte by its format, through
the bytes in memory. -/

namespace Sys2Proof.Machine

open Sys2Proof.Claims

/-! ## Operands -/

theorem regOfIndex_eq_regNamed {i : Nat} (h : i ≤ 3) : regOfIndex i = some (regNamed i) := by
  obtain ⟨r, hr⟩ := regOfIndex_isSome h
  rw [hr, regNamed_of_regOfIndex hr]

/-- Phases that begin with a register check. -/
theorem conclude_regCheck {s t : State} {i : Nat} {g : Reg → Except FaultRecord State}
    (h : conclude s (g (regNamed i)) = .next t) :
    conclude s (regCheck i >>= g) = .next (if 3 < i then faulted s (.registerFault i) else t) := by
  split
  · next hi =>
    rw [regCheck_eq_error.2 ⟨hi, rfl⟩]
    rfl
  · next hi =>
    rw [regCheck_eq_ok.2 (regOfIndex_eq_regNamed (Nat.le_of_not_lt hi))]
    exact h

/-- Phases that begin with a data read. -/
theorem conclude_memRead {s : State} {a : Nat} {g : Byte → Except FaultRecord State}
    {k : Byte → State} (h : ∀ v, conclude s (g v) = .next (k v)) :
    conclude s (s.memRead a >>= g) = .next (reading s a k) := by
  unfold reading
  split
  · next ha =>
    rw [State.memRead_nat ha]
    exact h _
  · next ha =>
    rw [State.memRead_nat_error (Nat.le_of_not_lt ha)]
    rfl

theorem conclude_operandReg (d r : Nibble) (s : State) (g : Reg × Byte → State) :
    conclude s (operandReg d r s >>= fun p => pure (g p)) = .next (
      if 3 < d.toNat then faulted s (.registerFault d.toNat)
      else if 3 < r.toNat then faulted s (.registerFault r.toNat)
      else g (regNamed d.toNat, x s r.toNat)) := by
  simp only [operandReg, bind_assoc, pure_bind]
  exact conclude_regCheck (conclude_regCheck rfl)

theorem conclude_operandRegaddr (d r : Nibble) (s : State) (g : Reg × Byte → State) :
    conclude s (operandRegaddr d r s >>= fun p => pure (g p)) = .next (
      if 3 < d.toNat then faulted s (.registerFault d.toNat)
      else if 3 < r.toNat then faulted s (.registerFault r.toNat)
      else reading s (x s r.toNat).toNat fun v => g (regNamed d.toNat, v)) := by
  simp only [operandRegaddr, bind_assoc, pure_bind]
  exact conclude_regCheck (conclude_regCheck (conclude_memRead fun _ => rfl))

theorem conclude_operandNum (d n : Byte) (s : State) (g : Reg × Byte → State) :
    conclude s (operandNum d n >>= fun p => pure (g p)) = .next (
      if 3 < d.toNat then faulted s (.registerFault d.toNat) else g (regNamed d.toNat, n)) := by
  simp only [operandNum, bind_assoc, pure_bind]
  exact conclude_regCheck rfl

theorem conclude_operandAddr (d a : Byte) (s : State) (g : Reg × Byte → State) :
    conclude s (operandAddr d a s >>= fun p => pure (g p)) = .next (
      if 3 < d.toNat then faulted s (.registerFault d.toNat)
      else reading s a.toNat fun v => g (regNamed d.toNat, v)) := by
  simp only [operandAddr, bind_assoc, pure_bind]
  exact conclude_regCheck (conclude_memRead fun _ => rfl)

theorem conclude_operandSole (r : Byte) (s : State) (g : Reg × Byte → State) :
    conclude s (operandSole r s >>= fun p => pure (g p)) = .next (
      if 3 < r.toNat then faulted s (.registerFault r.toNat) else g (regNamed r.toNat, x s r.toNat)) := by
  simp only [operandSole, bind_assoc, pure_bind]
  exact conclude_regCheck rfl

/-! ## The tick of an opcode byte -/

variable {op : Byte} {o : Opcode}

theorem pc_lt_of_at {s : State} (h : At op s) : s.pc < s.config.memSize := by
  obtain ⟨-, -, hpc, -⟩ := h
  exact hpc

/-- The tick of a Ready machine at an opcode byte runs the instruction fetched. -/
theorem step_of_at {s : State} {i : Instr} (h : At op s) (hf : fetch s = .ok i) : step s = exec i s := by
  obtain ⟨hs, -, hpc, -⟩ := h
  exact step_of_fetch_ok hs hpc hf

theorem opcodeOf_cell_of_at {s : State} (h : At op s) (ho : OpcodeMap.default.opcodeOf op = some o) :
    s.config.opcodeMap.opcodeOf (s.mem.read s.pc) = some o := by
  obtain ⟨-, hmap, -, rfl⟩ := h
  exact hmap ▸ ho

/-- The operand byte that would stand at N is missing. -/
theorem step_of_at_past_end {s : State} {k : Nat} (h : At op s)
    (ho : OpcodeMap.default.opcodeOf op = some o) (hk : k < o.length)
    (hN : s.config.memSize = s.pc + k) : step s = .next (faulted s (.addressFault (s.pc + k : Nat))) := by
  obtain ⟨hs, -, hpc, -⟩ := id h
  have hend := fetch_past_end hpc (opcodeOf_cell_of_at h ho) (by omega)
  rw [← hN]
  exact step_of_fetch_error hs hpc hend

/-- A format of one operand byte: it is missing, or the instruction is run. -/
theorem step_of_at_one {s t : State} (h : At op s) (ho : OpcodeMap.default.opcodeOf op = some o)
    (hf : o.format = .p ∨ o.format = .r ∨ o.format = .b)
    (hexec : exec (o.assemble (cell s (s.pc + 1)) 0) s = .next t) :
    step s = .next (
      if s.config.memSize ≤ s.pc + 1 then faulted s (.addressFault (s.pc + 1 : Nat)) else t) := by
  have hpc := pc_lt_of_at h
  have hlen : o.length = 2 := by
    rcases hf with hf | hf | hf <;> rw [Opcode.length, hf] <;> rfl
  split
  · exact step_of_at_past_end h ho (by omega) (by omega)
  · refine (step_of_at h (fetch_eq_ok.2 ⟨hpc, o, opcodeOf_cell_of_at h ho, by omega, ?_⟩)).trans hexec
    rcases hf with hf | hf | hf <;> rw [hf] <;> rfl

/-- Two operand bytes: the first is missing, or the second, or the instruction is run. -/
theorem step_of_at_two {s t : State} (h : At op s) (ho : OpcodeMap.default.opcodeOf op = some o)
    (hf : o.format = .rb)
    (hexec : exec (o.assemble (cell s (s.pc + 1)) (cell s (s.pc + 2))) s = .next t) :
    step s = .next (
      if s.config.memSize ≤ s.pc + 1 then faulted s (.addressFault (s.pc + 1 : Nat))
      else if s.config.memSize ≤ s.pc + 2 then faulted s (.addressFault (s.pc + 2 : Nat))
      else t) := by
  have hpc := pc_lt_of_at h
  have hlen : o.length = 3 := by
    rw [Opcode.length, hf]
    rfl
  split
  · exact step_of_at_past_end h ho (by omega) (by omega)
  split
  · exact step_of_at_past_end h ho (by omega) (by omega)
  · refine (step_of_at h (fetch_eq_ok.2 ⟨hpc, o, opcodeOf_cell_of_at h ho, by omega, ?_⟩)).trans hexec
    rw [hf]
    rfl

theorem toNat_highNibble (b : Byte) : (highNibble b).toNat = b.toNat / 16 := by
  have hb := b.isLt
  rw [highNibble, BitVec.toNat_ofNat]
  omega

theorem toNat_lowNibble (b : Byte) : (lowNibble b).toNat = b.toNat % 16 := by
  rw [lowNibble, BitVec.toNat_ofNat]
  omega

/-! ## The tick of each operand shape

`commit` is what the instruction does with its checked destination and its source value, `effect` the
same in the words of the statements. -/

variable {commit : State → Reg × Byte → State} {effect : State → Nat → Byte → State}

theorem tickP_reg (ho : OpcodeMap.default.opcodeOf op = some o) (hf : o.format = .p)
    (hexec : ∀ s b, exec (o.assemble b 0) s =
      conclude s (operandReg (highNibble b) (lowNibble b) s >>= fun p => pure (commit s p)))
    (hcommit : ∀ s d v, commit s (regNamed d, v) = effect s d v) :
    TickP op fun s d r => effect s d (x s r) := by
  intro s h
  refine step_of_at_one h ho (.inl hf) ?_
  simp only [hexec, conclude_operandReg, hcommit, toNat_highNibble, toNat_lowNibble]

theorem tickP_regaddr (ho : OpcodeMap.default.opcodeOf op = some o) (hf : o.format = .p)
    (hexec : ∀ s b, exec (o.assemble b 0) s =
      conclude s (operandRegaddr (highNibble b) (lowNibble b) s >>= fun p => pure (commit s p)))
    (hcommit : ∀ s d v, commit s (regNamed d, v) = effect s d v) :
    TickP op fun s d r => reading s (x s r).toNat (effect s d) := by
  intro s h
  refine step_of_at_one h ho (.inl hf) ?_
  simp only [hexec, conclude_operandRegaddr, hcommit, toNat_highNibble, toNat_lowNibble]

theorem tickRB_num (ho : OpcodeMap.default.opcodeOf op = some o) (hf : o.format = .rb)
    (hexec : ∀ s b n, exec (o.assemble b n) s =
      conclude s (operandNum b n >>= fun p => pure (commit s p)))
    (hcommit : ∀ s d v, commit s (regNamed d, v) = effect s d v) : TickRB op effect := by
  intro s h
  refine step_of_at_two h ho hf ?_
  simp only [hexec, conclude_operandNum, hcommit]

theorem tickRB_addr (ho : OpcodeMap.default.opcodeOf op = some o) (hf : o.format = .rb)
    (hexec : ∀ s b a, exec (o.assemble b a) s =
      conclude s (operandAddr b a s >>= fun p => pure (commit s p)))
    (hcommit : ∀ s d v, commit s (regNamed d, v) = effect s d v) :
    TickRB op fun s d a => reading s a.toNat (effect s d) := by
  intro s h
  refine step_of_at_two h ho hf ?_
  simp only [hexec, conclude_operandAddr, hcommit]

theorem tickR_sole {effect : State → Nat → State} (ho : OpcodeMap.default.opcodeOf op = some o)
    (hf : o.format = .r)
    (hexec : ∀ s b, exec (o.assemble b 0) s =
      conclude s (operandSole b s >>= fun p => pure (commit s p)))
    (hcommit : ∀ s d, commit s (regNamed d, x s d) = effect s d) : TickR op effect := by
  intro s h
  refine step_of_at_one h ho (.inr (.inl hf)) ?_
  simp only [hexec, conclude_operandSole, hcommit]

/-! ## The arithmetic forms of a sole register and of a number, on registers 0..3 -/

theorem exec_addNumToReg {d : Byte} (n : Byte) (s : State) (hd : d.toNat ≤ 3) :
    exec (.addNumToReg d n) s =
      .next (s.commitArith (regNamed d.toNat) (((x s d.toNat).toNat : Int) + (n.toNat : Int)) 3) :=
  (conclude_operandNum d n s _).trans (by rw [if_neg hd.not_gt]; rfl)

theorem exec_subNumFromReg {d : Byte} (n : Byte) (s : State) (hd : d.toNat ≤ 3) :
    exec (.subNumFromReg d n) s =
      .next (s.commitArith (regNamed d.toNat) (((x s d.toNat).toNat : Int) - (n.toNat : Int)) 3) :=
  (conclude_operandNum d n s _).trans (by rw [if_neg hd.not_gt]; rfl)

theorem exec_incReg {r : Byte} (s : State) (hr : r.toNat ≤ 3) :
    exec (.incReg r) s = .next (s.commitArith (regNamed r.toNat) (((x s r.toNat).toNat : Int) + 1) 2) :=
  (conclude_operandSole r s _).trans (by rw [if_neg hr.not_gt])

theorem exec_decReg {r : Byte} (s : State) (hr : r.toNat ≤ 3) :
    exec (.decReg r) s = .next (s.commitArith (regNamed r.toNat) (((x s r.toNat).toNat : Int) - 1) 2) :=
  (conclude_operandSole r s _).trans (by rw [if_neg hr.not_gt])

/-! ## CMP and SUB -/

/-- Phases that form one raw result, committed by CMP and by SUB, differ in the registers only; a fault
of the operand is the same fault (41_arithmetic R155). -/
theorem compare_is_arith_without_writeback {raw : Reg × Byte → Int} (s : State)
    (p : Except FaultRecord (Reg × Byte)) (len : Nat) :
    ∃ t, conclude s (p >>= fun a => pure (s.commitArith a.1 (raw a) len)) = .next t ∧
      conclude s (p >>= fun a => pure (s.commitCompare (raw a) len)) = .next { t with regs := s.regs } := by
  cases p with
  | ok a => exact ⟨s.commitArith a.1 (raw a) len, rfl, rfl⟩
  | error f => exact ⟨s.takeFault f, rfl, rfl⟩

end Sys2Proof.Machine
end

section
/-! The statements of the arithmetic family (41_arithmetic.md). -/

open Sys2Proof Sys2Proof.Machine Sys2Proof.Claims

/-- Settles O10, by the branch of the raw result. -/
theorem normalizeRule : Obligations.NormalizeRule := by
  intro rule r
  refine ⟨fun h => ?_, fun h => ?_, fun h => ?_, fun h0 h1 => ?_⟩
  · rw [normalizeRaw_of_ge rule h]
    exact ⟨rfl, rfl, toNat_ofInt_of_byte (by omega) (by omega)⟩
  · subst h
    rfl
  · rw [normalizeRaw_value_of_neg rule h, normalizeRaw_of_neg rule h]
    exact ⟨rfl, rfl, by cases rule <;> rfl⟩
  · rw [normalizeRaw_carry, normalizeRaw_zero, normalizeRaw_value_of_byte rule (by omega) (by omega)]
    exact ⟨decide_eq_false (by omega), decide_eq_false (by omega),
      toNat_ofInt_of_byte (by omega) (by omega)⟩

/-- Settles O11. Under MOD256 a raw result wraps to 0 only when 256 divides it. -/
theorem flagLaws : Obligations.FlagLaws := by
  refine ⟨fun rule r => ⟨normalizeRaw_flags_exclusive rule r, ?_⟩, fun rule => rfl, rfl,
    fun r h0 h1 hvalue => ?_⟩
  · rw [normalizeRaw_zero, decide_eq_true_iff]
  · have hwrap : (0 : Int) = r % 256 := calc
      (0 : Int) = (normalizeRaw .mod256 r).value.toNat := by rw [hvalue]; rfl
      _ = r % 256 := normalizeRaw_value_of_neg .mod256 (by omega)
    omega

/-- Settles O12: the rows of the table of R153. -/
theorem integerLaws : Obligations.IntegerLaws := by
  intro rule p q
  have hp := byte_le p
  have hq := byte_le q
  refine ⟨⟨by omega, ?_, normalizeRaw_carry_add rule _ _, normalizeRaw_zero_add rule _ _⟩,
    ⟨by omega, by omega, normalizeRaw_value_sub rule hp hq, normalizeRaw_carry_sub rule hp,
      normalizeRaw_zero_sub rule _ _⟩,
    ⟨by omega, by omega, ?_, ?_, ?_⟩, ⟨by omega, by omega, ?_, ?_, ?_⟩⟩
  · rw [normalizeRaw_value_add rule (by omega), BitVec.toNat_ofNat]
    split <;> omega
  · rw [← Nat.cast_one, normalizeRaw_value_add rule (by omega), BitVec.toNat_ofNat]
    split <;> split <;> omega
  · rw [normalizeRaw_carry, decide_eq_decide]
    omega
  · rw [normalizeRaw_zero]
    exact decide_eq_false (by omega)
  · rw [← Nat.cast_one, normalizeRaw_value_sub rule hp (by omega)]
    split
    · next h0 => rw [h0]; cases rule <;> rfl
    · next h0 => exact toNat_difference_of_le rule hp (by omega)
  · rw [normalizeRaw_carry, decide_eq_decide]
    omega
  · rw [normalizeRaw_zero, decide_eq_decide]
    omega

/-- Settles O14: both forms commit the same raw result, at their own lengths. -/
theorem incDecAreAddSubOne : Obligations.IncDecAreAddSubOne := by
  intro r s hr
  refine ⟨⟨_, ?_, exec_addNumToReg 1 s hr⟩, ⟨_, ?_, exec_subNumFromReg 1 s hr⟩,
    fun h0 => ⟨_, exec_decReg s hr, ?_⟩⟩
  · exact exec_incReg s hr
  · exact exec_decReg s hr
  · rw [State.commitArith_carry, normalizeRaw_carry, h0]
    rfl

/-- Settles O15: in each shape the two forms share their operand and their raw result. -/
theorem cmpIsSubWithoutWriteback : Obligations.CmpIsSubWithoutWriteback := fun s =>
  ⟨fun d r => compare_is_arith_without_writeback s (operandReg d r s) 2,
    fun d r => compare_is_arith_without_writeback s (operandRegaddr d r s) 2,
    fun d n => compare_is_arith_without_writeback s (operandNum d n) 3,
    fun d a => compare_is_arith_without_writeback s (operandAddr d a s) 3⟩

/-- Settles O17: the four operand shapes of R160 to R163, each committing as `commitArith_add` says. -/
theorem addTick : Obligations.AddTick :=
  have hcommit (len : Nat) (s : State) (d : Nat) (v : Byte) := commitArith_add s d (byte_le v) len
  ⟨tickP_reg (o := .addRegToReg) rfl rfl (fun _ _ => rfl) (hcommit 2),
    tickP_regaddr (o := .addRegaddrToReg) rfl rfl (fun _ _ => rfl) (hcommit 2),
    tickRB_num (o := .addNumToReg) rfl rfl (fun _ _ _ => rfl) (hcommit 3),
    tickRB_addr (o := .addAddrToReg) rfl rfl (fun _ _ _ => rfl) (hcommit 3)⟩

/-- Settles O18: the four operand shapes of R165 to R168, each committing as `commitArith_sub` says. -/
theorem subTick : Obligations.SubTick :=
  have hcommit (len : Nat) (s : State) (d : Nat) (v : Byte) := commitArith_sub s d (byte_le v) len
  ⟨tickP_reg (o := .subRegFromReg) rfl rfl (fun _ _ => rfl) (hcommit 2),
    tickP_regaddr (o := .subRegaddrFromReg) rfl rfl (fun _ _ => rfl) (hcommit 2),
    tickRB_num (o := .subNumFromReg) rfl rfl (fun _ _ _ => rfl) (hcommit 3),
    tickRB_addr (o := .subAddrFromReg) rfl rfl (fun _ _ _ => rfl) (hcommit 3)⟩

/-- Settles O19: the four operand shapes of R170 to R173, each committing as `commitCompare_sub` says. -/
theorem cmpTick : Obligations.CmpTick :=
  have hcommit (len : Nat) (s : State) (d : Nat) (v : Byte) := commitCompare_sub s d v.toNat len
  ⟨tickP_reg (o := .cmpRegWithReg) rfl rfl (fun _ _ => rfl) (hcommit 2),
    tickP_regaddr (o := .cmpRegaddrWithReg) rfl rfl (fun _ _ => rfl) (hcommit 2),
    tickRB_num (o := .cmpNumWithReg) rfl rfl (fun _ _ _ => rfl) (hcommit 3),
    tickRB_addr (o := .cmpAddrWithReg) rfl rfl (fun _ _ _ => rfl) (hcommit 3)⟩

/-- Settles O20: INC and DEC commit as an ADD and a SUB of 1. -/
theorem incDecTick : Obligations.IncDecTick :=
  ⟨tickR_sole (o := .incReg) rfl rfl (fun _ _ => rfl) fun s d =>
      commitArith_add s d (y := 1) (by omega) 2,
    tickR_sole (o := .decReg) rfl rfl (fun _ _ => rfl) fun s d =>
      commitArith_sub s d (y := 1) (by omega) 2⟩
end

section
/-! The commit of the four MOV forms, in the words of the statements. -/

namespace Sys2Proof.Machine

open Sys2Proof.Claims

/-- The commit of a MOV writes the destination register and the pc, and no flag (42_move). -/
theorem setReg_advance_eq_movTo (len : Nat) (s : State) (d : Nat) (v : Byte) :
    (s.setReg (regNamed d) v).advance len = movTo s d v len := rfl

end Sys2Proof.Machine
end

section
/-! The statements of the move family (42_move.md). -/

open Sys2Proof Sys2Proof.Machine Sys2Proof.Claims

/-- Settles O16: the four operand shapes of R200 to R203, each committing as `setReg_advance_eq_movTo`
says. -/
theorem movTick : Obligations.MovTick :=
  ⟨tickP_reg (o := .movRegToReg) rfl rfl (fun _ _ => rfl) (setReg_advance_eq_movTo 2),
    tickP_regaddr (o := .movRegaddrToReg) rfl rfl (fun _ _ => rfl) (setReg_advance_eq_movTo 2),
    tickRB_num (o := .movNumToReg) rfl rfl (fun _ _ _ => rfl) (setReg_advance_eq_movTo 3),
    tickRB_addr (o := .movAddrToReg) rfl rfl (fun _ _ _ => rfl) (setReg_advance_eq_movTo 3)⟩
end

section
/-! How a jump ends, in the words of the statements: the register check of a register form, then
`jumpOn` (43_control R230, R231). -/

namespace Sys2Proof.Machine

open Sys2Proof.Claims

/-! ## The phases of a jump -/

theorem conclude_jumpIf (s : State) (c : Bool) (v : Byte) :
    conclude s (s.jumpIf c v) = .next (jumpOn s c v) := by
  cases c with
  | false => rfl
  | true =>
    by_cases hv : v.toNat < s.config.memSize
    · rw [State.jumpIf_eq_ok.2 (.inl ⟨rfl, hv, rfl⟩), jumpOn, if_pos rfl, if_pos hv]
      rfl
    · rw [State.jumpIf_eq_error.2 ⟨rfl, Nat.le_of_not_lt hv, rfl⟩, jumpOn, if_pos rfl, if_neg hv]
      rfl

theorem conclude_jumpReg (r : Byte) (s : State) (c : Bool) :
    conclude s (operandSole r s >>= fun p => s.jumpIf c p.2) = .next (
      if 3 < r.toNat then faulted s (.registerFault r.toNat) else jumpOn s c (x s r.toNat)) := by
  simp only [operandSole, bind_assoc, pure_bind]
  exact conclude_regCheck (conclude_jumpIf s c _)

/-! ## The tick of the formats R and B, from what the instruction does -/

section Formats

variable {op : Byte} {o : Opcode}

theorem tickR_of_exec {effect : State → Nat → State} (ho : OpcodeMap.default.opcodeOf op = some o)
    (hf : o.format = .r)
    (hexec : ∀ s b, exec (o.assemble b 0) s = .next (
      if 3 < b.toNat then faulted s (.registerFault b.toNat) else effect s b.toNat)) :
    TickR op effect :=
  fun s h => step_of_at_one h ho (.inr (.inl hf)) (hexec s _)

theorem tickB_of_exec {effect : State → Byte → State} (ho : OpcodeMap.default.opcodeOf op = some o)
    (hf : o.format = .b) (hexec : ∀ s b, exec (o.assemble b 0) s = .next (effect s b)) :
    TickB op effect :=
  fun s h => step_of_at_one h ho (.inr (.inr hf)) (hexec s _)

end Formats

/-! ## Every jump at once -/

/-- A jump that names no missing register is `jumpOn` its condition and its target. -/
theorem exec_of_jumpCondition {i : Instr} {s : State} {c : Bool} (hc : jumpCondition s i = some c)
    (hw : i.wellFormed = true) :
    ∃ v : Byte, jumpTarget s i = v.toNat ∧ exec i s = .next (jumpOn s c v) := by
  cases i with
  | jmpReg r | jcReg r | jncReg r | jzReg r | jnzReg r =>
    have hr : r.toNat ≤ 3 := by simpa [Instr.wellFormed, Instr.registerFields] using hw
    have hexec := conclude_jumpReg r s c
    rw [if_neg hr.not_gt] at hexec
    obtain rfl := Option.some.inj hc
    exact ⟨x s r.toNat, rfl, hexec⟩
  | jmpAddr a | jcAddr a | jncAddr a | jzAddr a | jnzAddr a =>
    have hexec := conclude_jumpIf s c a
    obtain rfl := Option.some.inj hc
    exact ⟨a, rfl, hexec⟩
  | _ => simp [jumpCondition] at hc

/-- A jump commits the pc alone (43_control R232). -/
theorem Commits.eq_setPc {i : Instr} {s t : State} {c : Bool} (h : Commits s i t)
    (hc : jumpCondition s i = some c) : t = s.setPc t.pc := by
  cases h with
  | jump | fallThrough => rfl
  | halt hi => exact absurd hi (ne_stop_of_jumpCondition hc)
  | move hi | arith hi | compare hi | push hi | pop hi =>
    obtain ⟨-, hnone⟩ := sequential_of_group s i (by simp [hi])
    simp [hnone] at hc

/-- A jump sets the pc or takes a fault. -/
theorem setPc_or_faulted_of_jump {i : Instr} {s t : State} {c : Bool}
    (hc : jumpCondition s i = some c) (h : exec i s = .next t) :
    t = s.setPc t.pc ∨ ∃ f, t = faulted s f :=
  (exec_cases h).imp_left fun hcommit => hcommit.eq_setPc hc

/-- A jump that is taken goes to its target or takes a fault. -/
theorem target_or_faulted_of_jump {i : Instr} {s t : State} (hc : jumpCondition s i = some true)
    (h : exec i s = .next t) : t.pc = jumpTarget s i ∨ ∃ f, t = faulted s f := by
  refine (exec_cases h).imp_left fun hcommit => ?_
  rcases hcommit.pc_cases with ⟨hstop, -⟩ | ⟨-, hnone, -⟩ | ⟨hfalse, -⟩ | ⟨-, hpc, -⟩
  · exact absurd hstop (ne_stop_of_jumpCondition hc)
  · simp [hnone] at hc
  · simp [hfalse] at hc
  · exact hpc

/-- A jump that is not taken and names no missing register falls through. -/
theorem exec_of_jump_not_taken {i : Instr} {s : State} (hc : jumpCondition s i = some false)
    (hw : i.wellFormed = true) : exec i s = .next (s.advance 2) := by
  obtain ⟨v, -, hexec⟩ := exec_of_jumpCondition hc hw
  exact hexec

/-! ## The two forms of a conditional jump -/

/-- `i` is the register form and `j` the address form of a jump on the condition `c`. -/
theorem conditional_jump_forms {s : State} {b : Byte} {c : Bool} {i j : Instr}
    (hi : exec i s = .next (
      if 3 < b.toNat then faulted s (.registerFault b.toNat) else jumpOn s c (x s b.toNat)))
    (hj : exec j s = .next (jumpOn s c b)) :
    (c = true → exec i s = exec (.jmpReg b) s ∧ exec j s = exec (.jmpAddr b) s) ∧
    (c = false → exec j s = .next { s with pc := s.pc + 2 } ∧
      (b.toNat ≤ 3 → exec i s = .next { s with pc := s.pc + 2 })) ∧
    (3 < b.toNat → exec i s = .next (faulted s (.registerFault b.toNat))) := by
  refine ⟨?_, ?_, fun hb => ?_⟩
  · rintro rfl
    exact ⟨hi.trans (conclude_jumpReg b s true).symm, hj.trans (conclude_jumpIf s true b).symm⟩
  · rintro rfl
    exact ⟨hj, fun hb => by rw [hi, if_neg hb.not_gt]; rfl⟩
  · rw [hi, if_pos hb]

end Sys2Proof.Machine
end

section
/-! The statements of the control family (43_control.md). -/

open Sys2Proof Sys2Proof.Machine Sys2Proof.Claims

/-- Settles O21: JMP is the jump on the condition true. -/
theorem jmpTick : Obligations.JmpTick :=
  ⟨tickR_of_exec (o := .jmpReg) rfl rfl fun s r => conclude_jumpReg r s true,
    tickB_of_exec (o := .jmpAddr) rfl rfl fun s a => conclude_jumpIf s true a⟩

/-- Settles O22: the jumps on carry and on its absence, by `conclude_jumpReg` and `conclude_jumpIf`. -/
theorem jcTick : Obligations.JcTick :=
  ⟨tickR_of_exec (o := .jcReg) rfl rfl fun s r => conclude_jumpReg r s s.carry,
    tickB_of_exec (o := .jcAddr) rfl rfl fun s a => conclude_jumpIf s s.carry a,
    tickR_of_exec (o := .jncReg) rfl rfl fun s r => conclude_jumpReg r s !s.carry,
    tickB_of_exec (o := .jncAddr) rfl rfl fun s a => conclude_jumpIf s (!s.carry) a⟩

/-- Settles O23: the jumps on zero and on its absence, by `conclude_jumpReg` and `conclude_jumpIf`. -/
theorem jzTick : Obligations.JzTick :=
  ⟨tickR_of_exec (o := .jzReg) rfl rfl fun s r => conclude_jumpReg r s s.zero,
    tickB_of_exec (o := .jzAddr) rfl rfl fun s a => conclude_jumpIf s s.zero a,
    tickR_of_exec (o := .jnzReg) rfl rfl fun s r => conclude_jumpReg r s !s.zero,
    tickB_of_exec (o := .jnzAddr) rfl rfl fun s a => conclude_jumpIf s (!s.zero) a⟩

/-- Settles O35: the four conditions differ in the flag that `conditional_jump_forms` takes as `c`. -/
theorem conditionalJumps : Obligations.ConditionalJumps := by
  intro s b
  simp only [List.forall_mem_cons, List.not_mem_nil, false_imp_iff, implies_true, and_true]
  exact ⟨conditional_jump_forms (conclude_jumpReg b s s.carry) (conclude_jumpIf s s.carry b),
    conditional_jump_forms (conclude_jumpReg b s !s.carry) (conclude_jumpIf s (!s.carry) b),
    conditional_jump_forms (conclude_jumpReg b s s.zero) (conclude_jumpIf s s.zero b),
    conditional_jump_forms (conclude_jumpReg b s !s.zero) (conclude_jumpIf s (!s.zero) b)⟩

/-- Settles O39: a jump sets the pc or takes a fault, and neither touches another field. -/
theorem frameJump : Obligations.FrameJump := by
  intro i c s t hc h
  have hpast : c = false → i.wellFormed = true → t.pc = s.pc + 2 := by
    rintro rfl hw
    obtain rfl : t = s.advance 2 := by simpa [h] using exec_of_jump_not_taken hc hw
    rfl
  have htaken : c = true → t.pc = jumpTarget s i ∨ ∃ f, t = faulted s f := by
    rintro rfl
    exact target_or_faulted_of_jump hc h
  rcases setPc_or_faulted_of_jump hc h with ht | ⟨f, rfl⟩
  · rw [ht] at hpast htaken ⊢
    exact ⟨fun _ => rfl, rfl, rfl, rfl, fun _ => rfl, rfl, .inl ⟨rfl, rfl⟩, hpast, htaken⟩
  · exact ⟨fun _ => rfl, rfl, rfl, rfl, fun _ => rfl, rfl, .inr ⟨f, rfl⟩, hpast, htaken⟩
end

section
/-! How a PUSH or a POP ends, in the words of the statements: the stack access at SP and the advance, or
the AddressFault of that access (44_stack R270, R280). -/

namespace Sys2Proof.Machine

open Sys2Proof.Claims

theorem conclude_push (s : State) (v : Byte) :
    conclude s (s.push v >>= fun t => pure (t.advance 2)) = .next (pushed s v) := by
  unfold pushed
  split
  · next hout =>
    rw [State.push_eq_error.2 ⟨hout, rfl⟩]
    rfl
  · next hin =>
    obtain ⟨h0, hN⟩ := not_or.1 hin
    rw [State.push_eq_ok.2 ⟨Int.not_lt.1 h0, Int.not_le.1 hN, rfl⟩]
    rfl

theorem conclude_pop (s : State) (i : Nat) :
    conclude s (s.pop (regNamed i) >>= fun t => pure (t.advance 2)) = .next (popped s i) := by
  unfold popped
  split
  · next hout =>
    rw [State.pop_eq_error.2 ⟨hout, rfl⟩]
    rfl
  · next hin =>
    obtain ⟨h0, hN⟩ := not_or.1 hin
    rw [State.pop_eq_ok.2 ⟨Int.not_lt.1 h0, Int.not_le.1 hN, rfl⟩]
    rfl

/-- Phases that begin with the sole register of format R. -/
theorem conclude_operandSole_bind {r : Byte} {s t : State} {g : Reg × Byte → Except FaultRecord State}
    (h : conclude s (g (regNamed r.toNat, x s r.toNat)) = .next t) :
    conclude s (operandSole r s >>= g) = .next (
      if 3 < r.toNat then faulted s (.registerFault r.toNat) else t) := by
  simp only [operandSole, bind_assoc, pure_bind]
  exact conclude_regCheck h

end Sys2Proof.Machine
end

section
/-! The statements of the stack family (44_stack.md). -/

open Sys2Proof Sys2Proof.Machine Sys2Proof.Claims

/-- Settles O24: each form finds its value (R93), a fault of its register check or its data read coming
first, and then ends as `conclude_push` says. -/
theorem pushTick : Obligations.PushTick :=
  ⟨tickR_of_exec (o := .pushReg) rfl rfl fun s _ => conclude_operandSole_bind (conclude_push s _),
    tickR_of_exec (o := .pushRegaddr) rfl rfl fun s _ =>
      conclude_operandSole_bind (conclude_memRead (conclude_push s)),
    tickB_of_exec (o := .pushAddr) rfl rfl fun s _ => conclude_memRead (conclude_push s),
    tickB_of_exec (o := .pushNum) rfl rfl conclude_push⟩

/-- Settles O25: the register check, and then `conclude_pop`. -/
theorem popTick : Obligations.PopTick :=
  tickR_of_exec (o := .popReg) rfl rfl fun s r => conclude_regCheck (conclude_pop s r.toNat)
end

section
/-! The statements of the STOP family (45_stop.md). -/

open Sys2Proof Sys2Proof.Machine Sys2Proof.Claims

/-- Settles O26: STOP is fetched from its one byte, and running it is a halt, which the tick answers
Halted (R300). -/
theorem stopTick : Obligations.StopTick := by
  intro s h
  have hfetch : fetch s = .ok .stop := fetch_of_stop (pc_lt_of_at h) (opcodeOf_cell_of_at h rfl)
  have hstep : step s = .next s.halt := step_of_at h hfetch
  exact ⟨hstep, hstep ▸ tickResponse_halted rfl⟩
end

section
/-! The register checks come first: every instruction is its register checks, in their order, and then
an effect that raises no fault but AddressFault (40_execution R126, 60_exceptions R312). The fault of an
unassigned opcode byte (R313). -/

namespace Sys2Proof.Machine

open Sys2Proof.Claims

/-! ## Register checks, and then an effect -/

/-- The fields checked in order, the first one above 3 faulting; the effect `t` when none does. -/
def afterChecks (s t : State) : List Nat → State
  | [] => t
  | k :: ks => if 3 < k then faulted s (.registerFault k) else afterChecks s t ks

theorem afterChecks_of_find?_eq_some {s t : State} {ks : List Nat} {k : Nat}
    (h : (ks.find? fun j => decide (3 < j)) = some k) :
    afterChecks s t ks = faulted s (.registerFault k) := by
  induction ks with
  | nil => simp at h
  | cons j ks ih =>
    by_cases hj : 3 < j
    · obtain rfl : j = k := by simpa [hj] using h
      exact if_pos hj
    · exact (if_neg hj).trans (ih (by simpa [hj] using h))

theorem afterChecks_of_forall_le {s t : State} {ks : List Nat} (h : ∀ k ∈ ks, k ≤ 3) :
    afterChecks s t ks = t := by
  induction ks with
  | nil => rfl
  | cons k ks ih =>
    obtain ⟨hk, hks⟩ := List.forall_mem_cons.1 h
    exact (if_neg hk.not_gt).trans (ih hks)

/-! ## What an effect may raise -/

/-- From `s` to `t` the machine goes on, halts, or takes an AddressFault. -/
def AddressFaultOnly (s t : State) : Prop :=
  t.status = s.status ∨ t.status = .halted ∨ ∃ a, t = faulted s (.addressFault a)

theorem AddressFaultOnly.of_status {s t : State} (h : t.status = s.status) : AddressFaultOnly s t :=
  .inl h

theorem AddressFaultOnly.of_addressFault (s : State) (a : Int) :
    AddressFaultOnly s (faulted s (.addressFault a)) :=
  .inr (.inr ⟨a, rfl⟩)

theorem AddressFaultOnly.reading {s : State} {k : Byte → State} (a : Nat)
    (h : ∀ v, AddressFaultOnly s (k v)) : AddressFaultOnly s (reading s a k) := by
  unfold Claims.reading
  split
  · exact h _
  · exact .of_addressFault s a

theorem AddressFaultOnly.jumpOn (s : State) (c : Bool) (v : Byte) :
    AddressFaultOnly s (jumpOn s c v) := by
  unfold Claims.jumpOn
  split
  · split
    · exact .of_status rfl
    · exact .of_addressFault s _
  · exact .of_status rfl

theorem AddressFaultOnly.pushed (s : State) (v : Byte) : AddressFaultOnly s (pushed s v) := by
  unfold Claims.pushed
  split
  · exact .of_addressFault s _
  · exact .of_status rfl

theorem AddressFaultOnly.popped (s : State) (k : Nat) : AddressFaultOnly s (popped s k) := by
  unfold Claims.popped
  split
  · exact .of_addressFault s _
  · exact .of_status rfl

/-- A Ready machine that such an effect leaves Faulted has no RegisterFault recorded. -/
theorem AddressFaultOnly.ne_registerFault {s t : State} (h : AddressFaultOnly s t)
    (hs : s.status = .ready) (ht : t.status = .faulted) (k : Nat) :
    t.faultInfo ≠ some (.registerFault k) := by
  rcases h with hst | hst | ⟨a, rfl⟩
  · simp [hst, hs] at ht
  · simp [hst] at ht
  · simp [faulted]

/-! ## Every instruction at once -/

/-- Whatever the registers, the memory, the flags and SP are, an instruction's register checks come
before all else it does, and no other phase raises a RegisterFault. -/
theorem exec_eq_afterChecks (i : Instr) (s : State) :
    ∃ t, exec i s = .next (afterChecks s t i.registerFields) ∧ AddressFaultOnly s t := by
  cases i with
  | stop => exact ⟨s.halt, rfl, .inr (.inl rfl)⟩
  | movRegToReg d r | addRegToReg d r | subRegFromReg d r | cmpRegWithReg d r =>
    exact ⟨_, conclude_operandReg d r s _, .of_status rfl⟩
  | movRegaddrToReg d r | addRegaddrToReg d r | subRegaddrFromReg d r | cmpRegaddrWithReg d r =>
    exact ⟨reading s _ _, conclude_operandRegaddr d r s _, .reading _ fun _ => .of_status rfl⟩
  | movNumToReg d n | addNumToReg d n | subNumFromReg d n | cmpNumWithReg d n =>
    exact ⟨_, conclude_operandNum d n s _, .of_status rfl⟩
  | movAddrToReg d a | addAddrToReg d a | subAddrFromReg d a | cmpAddrWithReg d a =>
    exact ⟨reading s _ _, conclude_operandAddr d a s _, .reading _ fun _ => .of_status rfl⟩
  | incReg r | decReg r => exact ⟨_, conclude_operandSole r s _, .of_status rfl⟩
  | jmpReg r => exact ⟨_, conclude_jumpReg r s true, .jumpOn s true _⟩
  | jmpAddr a => exact ⟨_, conclude_jumpIf s true a, .jumpOn s true a⟩
  | jcReg r | jncReg r | jzReg r | jnzReg r =>
    exact ⟨_, conclude_jumpReg r s _, .jumpOn s _ _⟩
  | jcAddr a | jncAddr a | jzAddr a | jnzAddr a =>
    exact ⟨_, conclude_jumpIf s _ a, .jumpOn s _ a⟩
  | pushReg r => exact ⟨_, conclude_operandSole_bind (conclude_push s _), .pushed s _⟩
  | pushRegaddr r =>
    exact ⟨_, conclude_operandSole_bind (conclude_memRead (conclude_push s)),
      .reading _ (.pushed s)⟩
  | pushAddr a => exact ⟨_, conclude_memRead (conclude_push s), .reading _ (.pushed s)⟩
  | pushNum n => exact ⟨_, conclude_push s n, .pushed s n⟩
  | popReg r => exact ⟨_, conclude_regCheck (conclude_pop s r.toNat), .popped s _⟩

theorem wellFormed_iff {i : Instr} : i.wellFormed = true ↔ ∀ k ∈ i.registerFields, k ≤ 3 := by
  simp [Instr.wellFormed]

/-! ## An unassigned opcode byte -/

/-- The opcode byte alone is read, so IP may be at the last cell. -/
theorem fetch_of_unknown {s : State} (hpc : s.pc < s.config.memSize)
    (ho : s.config.opcodeMap.opcodeOf (s.mem.read s.pc) = none) :
    fetch s = .error (.unknownOpcodeFault (s.mem.read s.pc)) := by
  rw [fetch, State.memRead_nat hpc]
  simp only [bind, Except.bind, ho]

end Sys2Proof.Machine
end

section
/-! The statements of the exceptions family (60_exceptions.md). -/

open Sys2Proof Sys2Proof.Machine Sys2Proof.Claims

/-- Settles O44: `exec_eq_afterChecks`, with the first field above 3 found by the checks, or with none. -/
theorem registerFaultFirst : Obligations.RegisterFaultFirst := by
  intro i s
  obtain ⟨u, hexec, hu⟩ := exec_eq_afterChecks i s
  refine ⟨fun k hk => ?_, fun hw hs t k h ht => ?_⟩
  · rw [hexec, afterChecks_of_find?_eq_some hk]
  · rw [hexec, afterChecks_of_forall_le (wellFormed_iff.1 hw)] at h
    cases h
    exact hu.ne_registerFault hs ht k

/-- Settles O48: the fetch stops at the opcode byte, and the default map assigns the bytes below 34. -/
theorem unknownOpcode : Obligations.UnknownOpcode :=
  ⟨fun _ hs hpc ho => step_of_fetch_error hs hpc (fetch_of_unknown hpc ho),
    fun _ => OpcodeMap.default_opcodeOf_eq_none⟩
end

section
/-! Reset, then a tick with nothing loaded (70_reset_and_hazards R352). -/

namespace Sys2Proof.Machine

/-- With no cell listed, as reset leaves it, memory reads 0 everywhere (10_state R34). -/
@[simp] theorem Memory.read_nil (a : Nat) : Memory.read [] a = 0 := rfl

/-- A byte of cleared memory is the opcode byte of STOP under the default map. -/
theorem OpcodeMap.default_opcodeOf_zero : OpcodeMap.default.opcodeOf 0#8 = some .stop := rfl

/-- After a reset with no load, STOP is fetched from address 0. -/
theorem fetch_applyReset {s : State} (hN : 1 ≤ s.config.memSize)
    (hmap : s.config.opcodeMap = OpcodeMap.default) : fetch s.applyReset = .ok .stop :=
  fetch_of_stop hN (by simp [hmap, OpcodeMap.default_opcodeOf_zero])

end Sys2Proof.Machine
end

section
/-! The statements of the reset family (70_reset_and_hazards.md). -/

open Sys2Proof Sys2Proof.Machine Sys2Proof.Claims

/-- Settles O2: the zero at address 0 is fetched as STOP, and running STOP is a halt (R300). -/
theorem resetThenTick : Obligations.ResetThenTick := fun s hN hmap =>
  ⟨Memory.read_nil, step_of_fetch_ok s.applyReset_status hN (fetch_applyReset hN hmap)⟩
end

section
/-! The decoder as a relation between bytes and instructions: an instruction is its opcode and its operand
bytes, the encoding is the opcode's byte and those bytes, and decoding undoes it under every legal map
(30_encoding sections 1, 2 and 7). A fetch reads the same bytes from memory. -/

namespace Sys2Proof

/-! ## Opcode maps -/

/-- Where no byte has two rows, the opcode of a byte is the one in its row. -/
theorem OpcodeMap.opcodeOf_of_mem {m : OpcodeMap} {b : Byte} {o : Opcode}
    (hm : (m.map Prod.snd).Nodup) (h : (o, b) ∈ m) : m.opcodeOf b = some o := by
  induction m with
  | nil => exact absurd h List.not_mem_nil
  | cons row rest ih =>
    obtain ⟨hnew, hrest⟩ := List.nodup_cons.1 hm
    rcases List.mem_cons.1 h with rfl | hmem
    · exact if_pos rfl
    · have hne : row.2 ≠ b := fun he => hnew (he ▸ List.mem_map_of_mem hmem)
      exact (if_neg hne).trans (ih hrest hmem)

theorem Opcode.mem_all (o : Opcode) : o ∈ Opcode.all := by
  cases o <;> decide

/-- Under a legal map the byte of an opcode is assigned to it. -/
theorem OpcodeMap.opcodeOf_byteOf {m : OpcodeMap} (hm : m.legal = true) (o : Opcode) :
    m.opcodeOf (m.byteOf o) = some o := by
  obtain ⟨hopcodes, hbytes⟩ := OpcodeMap.legal_iff.1 hm
  have ho : o ∈ m.map Prod.fst := hopcodes ▸ o.mem_all
  obtain ⟨⟨o', b⟩, hrow, rfl⟩ := List.mem_map.1 ho
  have hbyte := OpcodeMap.byteOf_of_mem (hopcodes ▸ Opcode.all_nodup) hrow
  rw [hbyte]
  exact OpcodeMap.opcodeOf_of_mem hbytes hrow

/-! ## Packed pairs -/

@[simp] theorem highNibble_packNibbles (d r : Nibble) : highNibble (packNibbles d r) = d := by
  have hd := d.isLt
  have hr := r.isLt
  apply BitVec.eq_of_toNat_eq
  rw [Machine.toNat_highNibble, packNibbles, BitVec.toNat_ofNat]
  omega

@[simp] theorem lowNibble_packNibbles (d r : Nibble) : lowNibble (packNibbles d r) = r := by
  have hd := d.isLt
  have hr := r.isLt
  apply BitVec.eq_of_toNat_eq
  rw [Machine.toNat_lowNibble, packNibbles, BitVec.toNat_ofNat]
  omega

@[simp] theorem packNibbles_nibbles (b : Byte) : packNibbles (highNibble b) (lowNibble b) = b := by
  have hb := b.isLt
  apply BitVec.eq_of_toNat_eq
  rw [packNibbles, Machine.toNat_highNibble, Machine.toNat_lowNibble, BitVec.toNat_ofNat]
  omega

/-! ## An instruction as an opcode and its operand bytes -/

theorem Opcode.one_le_length (o : Opcode) : 1 ≤ o.length := by
  rw [Opcode.length]
  cases o.format <;> decide

theorem Opcode.length_le_three (o : Opcode) : o.length ≤ 3 := by
  rw [Opcode.length]
  cases o.format <;> decide

/-- Of two operand bytes, an instruction keeps those its format has. -/
theorem operandBytes_assemble (o : Opcode) (b1 b2 : Byte) :
    (o.assemble b1 b2).operandBytes = [b1, b2].take (o.length - 1) := by
  cases o with
  | movRegToReg | movRegaddrToReg | addRegToReg | addRegaddrToReg | subRegFromReg | subRegaddrFromReg
  | cmpRegWithReg | cmpRegaddrWithReg => exact congrArg ([·]) (packNibbles_nibbles b1)
  | _ => rfl

/-- A format looks at no operand byte past its length. -/
theorem assemble_congr {o : Opcode} {b1 b2 c1 c2 : Byte} (h1 : 2 ≤ o.length → b1 = c1)
    (h2 : 3 ≤ o.length → b2 = c2) : o.assemble b1 b2 = o.assemble c1 c2 := by
  cases o with
  | stop => rfl
  | movNumToReg | movAddrToReg | addNumToReg | addAddrToReg | subNumFromReg | subAddrFromReg
  | cmpNumWithReg | cmpAddrWithReg => rw [h1 (by decide), h2 (by decide)]
  | _ =>
    obtain rfl := h1 (by decide)
    rfl

/-- Every instruction is assembled from operand bytes. -/
theorem exists_assemble (i : Instr) : ∃ b1 b2, i = i.opcode.assemble b1 b2 := by
  cases i with
  | stop => exact ⟨0, 0, rfl⟩
  | movRegToReg d r | movRegaddrToReg d r | addRegToReg d r | addRegaddrToReg d r | subRegFromReg d r
  | subRegaddrFromReg d r | cmpRegWithReg d r | cmpRegaddrWithReg d r =>
    exact ⟨packNibbles d r, 0, by simp [Instr.opcode, Opcode.assemble]⟩
  | movNumToReg d v | movAddrToReg d v | addNumToReg d v | addAddrToReg d v | subNumFromReg d v
  | subAddrFromReg d v | cmpNumWithReg d v | cmpAddrWithReg d v => exact ⟨d, v, rfl⟩
  | incReg b | decReg b | jmpReg b | jmpAddr b | jcReg b | jcAddr b | jncReg b | jncAddr b | jzReg b
  | jzAddr b | jnzReg b | jnzAddr b | pushReg b | pushRegaddr b | pushAddr b | pushNum b | popReg b =>
    exact ⟨b, 0, rfl⟩

theorem encode_assemble (m : OpcodeMap) (o : Opcode) (b1 b2 : Byte) :
    encode m (o.assemble b1 b2) = m.byteOf o :: [b1, b2].take (o.length - 1) := by
  rw [encode, Machine.assemble_opcode, operandBytes_assemble]

/-! ## What decoding answers -/

theorem decodeOne_eq_ok {o : Opcode} {bytes rest : List Byte} {i : Instr} :
    decodeOne o bytes = .ok (i, rest) ↔ ∃ b1, bytes = b1 :: rest ∧ i = o.assemble b1 0 := by
  cases bytes <;> simp [decodeOne, eq_comm, and_comm]

theorem decodeTwo_eq_ok {o : Opcode} {bytes rest : List Byte} {i : Instr} :
    decodeTwo o bytes = .ok (i, rest) ↔ ∃ b1 b2, bytes = b1 :: b2 :: rest ∧ i = o.assemble b1 b2 := by
  match bytes with
  | [] | [_] | _ :: _ :: _ => simp [decodeTwo, eq_comm, and_comm]

/-- Decoding takes the operand bytes of the opcode's format off the front. -/
theorem decode_cons_eq_ok {m : OpcodeMap} {op : Byte} {o : Opcode} {bytes rest : List Byte} {i : Instr}
    (ho : m.opcodeOf op = some o) :
    decode m (op :: bytes) = .ok (i, rest) ↔
      ∃ b1 b2, bytes = [b1, b2].take (o.length - 1) ++ rest ∧ i = o.assemble b1 b2 := by
  have hone : o.length = 2 → ((∃ b1, bytes = b1 :: rest ∧ i = o.assemble b1 0) ↔
      ∃ b1 b2, bytes = [b1, b2].take (o.length - 1) ++ rest ∧ i = o.assemble b1 b2) := fun hlen => by
    have hcongr (b1 b2 : Byte) : o.assemble b1 b2 = o.assemble b1 0 :=
      assemble_congr (fun _ => rfl) (by omega)
    simp [hlen, hcongr]
  cases hf : o.format with
  | n =>
    have hlen : o.length = 1 := by rw [Opcode.length, hf]; rfl
    have hcongr (b1 b2 : Byte) : o.assemble b1 b2 = o.assemble 0 0 :=
      assemble_congr (by omega) (by omega)
    simp [decode, ho, hf, hlen, hcongr, eq_comm, and_comm]
  | rb =>
    have hlen : o.length = 3 := by rw [Opcode.length, hf]; rfl
    simp [decode, ho, hf, hlen, decodeTwo_eq_ok]
  | p | r | b =>
    simp only [decode, ho, hf, decodeOne_eq_ok]
    exact hone (by rw [Opcode.length, hf]; rfl)

/-- What bytes that decode are: an assigned opcode byte, the operand bytes of its format, the rest. -/
theorem decode_eq_ok {m : OpcodeMap} {bytes rest : List Byte} {i : Instr} :
    decode m bytes = .ok (i, rest) ↔ ∃ op o b1 b2, m.opcodeOf op = some o ∧
      bytes = op :: ([b1, b2].take (o.length - 1) ++ rest) ∧ i = o.assemble b1 b2 := by
  constructor
  · intro h
    match bytes with
    | [] => simp [decode] at h
    | op :: bytes =>
      cases ho : m.opcodeOf op with
      | none => simp [decode, ho] at h
      | some o =>
        obtain ⟨b1, b2, rfl, rfl⟩ := (decode_cons_eq_ok ho).1 h
        exact ⟨op, o, b1, b2, ho, rfl, rfl⟩
  · rintro ⟨op, o, b1, b2, ho, rfl, rfl⟩
    exact (decode_cons_eq_ok ho).2 ⟨b1, b2, rfl, rfl⟩

/-! ## What a fetch reads -/

namespace Machine

open Claims

/-- The instruction at IP, all its bytes below N. -/
theorem fetch_of_opcodeOf {s : State} {o : Opcode}
    (ho : s.config.opcodeMap.opcodeOf (cell s s.pc) = some o)
    (hlen : s.pc + o.length ≤ s.config.memSize) :
    fetch s = .ok (o.assemble (cell s (s.pc + 1)) (cell s (s.pc + 2))) := by
  have hpos := o.one_le_length
  refine fetch_eq_ok.2 ⟨by omega, o, ho, hlen, ?_⟩
  cases hf : o.format with
  | n =>
    exact assemble_congr (by simp [Opcode.length, hf, InstrFormat.length])
      (by simp [Opcode.length, hf, InstrFormat.length])
  | p | r | b => exact assemble_congr (fun _ => rfl) (by simp [Opcode.length, hf, InstrFormat.length])
  | rb => rfl

/-- Bytes that stand in memory from IP upward and decode are what a fetch reads. -/
theorem fetch_of_decode {s : State} {bytes rest : List Byte} {i : Instr}
    (hN : s.pc + bytes.length ≤ s.config.memSize)
    (hcell : ∀ (k : Nat) (h : k < bytes.length), cell s (s.pc + k) = bytes[k])
    (h : decode s.config.opcodeMap bytes = .ok (i, rest)) : fetch s = .ok i := by
  obtain ⟨op, o, b1, b2, ho, rfl, rfl⟩ := decode_eq_ok.1 h
  have hpos := o.one_le_length
  have hle := o.length_le_three
  simp only [List.length_cons, List.length_append, List.length_take, List.length_nil] at hN hcell
  have hop : cell s s.pc = op := hcell 0 (by omega)
  rw [fetch_of_opcodeOf (hop ▸ ho) (by omega)]
  refine congrArg Except.ok (assemble_congr (fun h1 => ?_) fun h2 => ?_)
  · have hkept : ¬ o.length ≤ 1 := by omega
    rw [hcell 1 (by omega)]
    simp [List.getElem_append, hkept]
  · have hkept : ¬ o.length ≤ 2 := by omega
    rw [hcell 2 (by omega)]
    simp [List.getElem_append, hkept]

end Machine

end Sys2Proof
end

section
/-! The statements about decoding and encoding (30_encoding.md), and the step of a decoded
instruction. -/

open Sys2Proof Sys2Proof.Machine

/-- Settles O55: an instruction is its opcode and its operand bytes, and a legal map assigns the opcode's
byte to it. -/
theorem decodeOfEncode : Obligations.DecodeOfEncode := by
  intro m i rest hm
  obtain ⟨b1, b2, hi⟩ := exists_assemble i
  rw [hi, encode_assemble]
  exact decode_eq_ok.2 ⟨_, i.opcode, b1, b2, OpcodeMap.opcodeOf_byteOf hm _, rfl, rfl⟩

/-- Settles O56: the bytes are an assigned opcode byte and the operand bytes the instruction is assembled
from, and a legal map encodes the opcode by that byte. -/
theorem encodeOfDecode : Obligations.EncodeOfDecode := by
  intro m bytes rest i hm h
  obtain ⟨op, o, b1, b2, ho, rfl, rfl⟩ := decode_eq_ok.1 h
  rw [encode_assemble, OpcodeMap.byteOf_of_opcodeOf hm ho, List.cons_append]

/-- Settles O52: the fetch reads the bytes that decode. -/
theorem stepRunsDecoded : Obligations.StepRunsDecoded := by
  intro s bytes rest i hs hN hcell h
  have hfetch := fetch_of_decode hN hcell h
  obtain ⟨hpc, -⟩ := fetch_eq_ok.1 hfetch
  exact step_of_fetch_ok hs hpc hfetch

/-- Settles O54: each word is an opcode byte of the default map and the operand bytes of its format. -/
theorem decodeWords : Obligations.DecodeWords :=
  ⟨rfl, rfl, rfl, rfl, rfl, rfl, rfl, rfl, rfl⟩
end

section
/-! Instructions that complete: each operand shape on registers 0..3 and a readable address, the jumps on
a target below N, and the stack operations on an SP inside memory. -/

namespace Sys2Proof.Machine

open Sys2Proof.Claims

theorem reading_of_lt {s : State} {a : Nat} {k : Byte → State} (ha : a < s.config.memSize) :
    reading s a k = k (cell s a) := if_pos ha

/-! ## The operand shapes

`g` is what the instruction does with its checked destination and its source value. -/

section Shapes

variable {s t : State} {g : Reg × Byte → State}

theorem operandReg_completes {d r : Nibble} (hd : d.toNat ≤ 3) (hr : r.toNat ≤ 3)
    (ht : g (regNamed d.toNat, x s r.toNat) = t) :
    conclude s (operandReg d r s >>= fun p => pure (g p)) = .next t := by
  rw [conclude_operandReg, if_neg hd.not_gt, if_neg hr.not_gt, ht]

theorem operandRegaddr_completes {d r : Nibble} (hd : d.toNat ≤ 3) (hr : r.toNat ≤ 3)
    (ha : (x s r.toNat).toNat < s.config.memSize)
    (ht : g (regNamed d.toNat, cell s (x s r.toNat).toNat) = t) :
    conclude s (operandRegaddr d r s >>= fun p => pure (g p)) = .next t := by
  rw [conclude_operandRegaddr, if_neg hd.not_gt, if_neg hr.not_gt, reading_of_lt ha, ht]

theorem operandNum_completes {d n : Byte} (hd : d.toNat ≤ 3) (ht : g (regNamed d.toNat, n) = t) :
    conclude s (operandNum d n >>= fun p => pure (g p)) = .next t := by
  rw [conclude_operandNum, if_neg hd.not_gt, ht]

theorem operandAddr_completes {d a : Byte} (hd : d.toNat ≤ 3) (ha : a.toNat < s.config.memSize)
    (ht : g (regNamed d.toNat, cell s a.toNat) = t) :
    conclude s (operandAddr d a s >>= fun p => pure (g p)) = .next t := by
  rw [conclude_operandAddr, if_neg hd.not_gt, reading_of_lt ha, ht]

end Shapes

/-! ## The stack -/

/-- A PUSH that completes, in the words of the statements. -/
def stored (s : State) (v : Byte) : State :=
  { s with mem := s.mem.write s.sp.toNat v, sp := s.sp - 1, pc := s.pc + 2 }

theorem pushed_eq_stored {s : State} (h0 : 0 ≤ s.sp) (hN : s.sp < s.config.memSize) (v : Byte) :
    pushed s v = stored s v :=
  if_neg (by omega)

theorem exec_pushReg {s : State} {r : Byte} (hr : r.toNat ≤ 3) :
    exec (.pushReg r) s = .next (pushed s (x s r.toNat)) :=
  (conclude_operandSole_bind (conclude_push s _)).trans (by rw [if_neg hr.not_gt])

theorem exec_pushRegaddr {s : State} {r : Byte} (hr : r.toNat ≤ 3)
    (ha : (x s r.toNat).toNat < s.config.memSize) :
    exec (.pushRegaddr r) s = .next (pushed s (cell s (x s r.toNat).toNat)) :=
  (conclude_operandSole_bind (conclude_memRead (conclude_push s))).trans
    (by rw [if_neg hr.not_gt, reading_of_lt ha])

theorem exec_pushAddr {s : State} {a : Byte} (ha : a.toNat < s.config.memSize) :
    exec (.pushAddr a) s = .next (pushed s (cell s a.toNat)) :=
  (conclude_memRead (conclude_push s)).trans (by rw [reading_of_lt ha])

theorem exec_popReg {s : State} {r : Byte} (hr : r.toNat ≤ 3) (h0 : 0 ≤ s.sp + 1)
    (hN : s.sp + 1 < s.config.memSize) :
    exec (.popReg r) s = .next { s with
      regs := s.regs.set (regNamed r.toNat) (cell s (s.sp + 1).toNat)
      sp := s.sp + 1
      pc := s.pc + 2 } :=
  (conclude_regCheck (conclude_pop s r.toNat)).trans
    (by rw [if_neg hr.not_gt, popped, if_neg (by omega)])

end Sys2Proof.Machine
end

section
/-! The statements that every instruction completes. -/

open Sys2Proof Sys2Proof.Machine Sys2Proof.Claims

/-- Settles O27: the four operand shapes, each committing as `setReg_advance_eq_movTo` says. -/
theorem movCompletes : Obligations.MovCompletes := fun s =>
  ⟨fun _ _ hd hr => operandReg_completes hd hr (setReg_advance_eq_movTo 2 s _ _),
    fun _ _ hd hr ha => operandRegaddr_completes hd hr ha (setReg_advance_eq_movTo 2 s _ _),
    fun _ _ hd => operandNum_completes hd (setReg_advance_eq_movTo 3 s _ _),
    fun _ _ hd ha => operandAddr_completes hd ha (setReg_advance_eq_movTo 3 s _ _)⟩

/-- Settles O28: the four operand shapes, each committing as `commitArith_add` says. -/
theorem addCompletes : Obligations.AddCompletes := fun s =>
  have hcommit (len : Nat) (s : State) (d : Nat) (v : Byte) := commitArith_add s d (byte_le v) len
  ⟨fun _ _ hd hr => operandReg_completes hd hr (hcommit 2 s _ _),
    fun _ _ hd hr ha => operandRegaddr_completes hd hr ha (hcommit 2 s _ _),
    fun _ _ hd => operandNum_completes hd (hcommit 3 s _ _),
    fun _ _ hd ha => operandAddr_completes hd ha (hcommit 3 s _ _)⟩

/-- Settles O29: the four operand shapes, each committing as `commitArith_sub` says. -/
theorem subCompletes : Obligations.SubCompletes := fun s =>
  have hcommit (len : Nat) (s : State) (d : Nat) (v : Byte) := commitArith_sub s d (byte_le v) len
  ⟨fun _ _ hd hr => operandReg_completes hd hr (hcommit 2 s _ _),
    fun _ _ hd hr ha => operandRegaddr_completes hd hr ha (hcommit 2 s _ _),
    fun _ _ hd => operandNum_completes hd (hcommit 3 s _ _),
    fun _ _ hd ha => operandAddr_completes hd ha (hcommit 3 s _ _)⟩

/-- Settles O30: the four operand shapes, each committing as `commitCompare_sub` says. -/
theorem cmpCompletes : Obligations.CmpCompletes := fun s =>
  have hcommit (len : Nat) (s : State) (d : Nat) (v : Byte) := commitCompare_sub s d v.toNat len
  ⟨fun _ _ hd hr => operandReg_completes hd hr (hcommit 2 s _ _),
    fun _ _ hd hr ha => operandRegaddr_completes hd hr ha (hcommit 2 s _ _),
    fun _ _ hd => operandNum_completes hd (hcommit 3 s _ _),
    fun _ _ hd ha => operandAddr_completes hd ha (hcommit 3 s _ _)⟩

/-- Settles O31: INC and DEC commit as an ADD and a SUB of 1. -/
theorem incDecCompletes : Obligations.IncDecCompletes := fun s r hr =>
  ⟨(exec_incReg s hr).trans (congrArg _ (commitArith_add s r.toNat (y := 1) (by omega) 2)),
    (exec_decReg s hr).trans (congrArg _ (commitArith_sub s r.toNat (y := 1) (by omega) 2))⟩

/-- Settles O32: a jump is `jumpOn` its condition and its target. -/
theorem controlCompletes : Obligations.ControlCompletes := by
  refine fun s => ⟨fun i hc hw ht => ?_, fun i => exec_of_jump_not_taken, rfl⟩
  obtain ⟨v, hv, hexec⟩ := exec_of_jumpCondition hc hw
  rw [hexec, hv, jumpOn, if_pos rfl, if_pos (hv ▸ ht)]

/-- Settles O33: each PUSH form finds its value and then ends as `pushed`, which stores inside memory. -/
theorem stackCompletes : Obligations.StackCompletes := by
  refine fun s => ⟨fun h0 hN => ?_, fun r => exec_popReg⟩
  have hstored := pushed_eq_stored h0 hN
  exact ⟨fun r hr => (exec_pushReg hr).trans (congrArg _ (hstored _)),
    fun r hr ha => (exec_pushRegaddr hr ha).trans (congrArg _ (hstored _)),
    fun a ha => (exec_pushAddr ha).trans (congrArg _ (hstored _)),
    fun n => (conclude_push s n).trans (congrArg _ (hstored n))⟩

/-- Settles O34: POP reads at SP + 1, the address PUSH stored to. -/
theorem pushPopInverse : Obligations.PushPopInverse := by
  intro s r q hr hq h0 hN
  have hsp : (stored s (x s r.toNat)).sp + 1 = s.sp := Int.sub_add_cancel s.sp 1
  have hpush : exec (.pushReg r) s = .next (stored s (x s r.toNat)) :=
    pushed_eq_stored h0 hN _ ▸ exec_pushReg hr
  have hpop := exec_popReg (s := stored s (x s r.toNat)) hq (hsp ▸ h0) (hsp ▸ hN)
  refine ⟨_, _, hpush, hpop, hsp, ?_, fun k hk => ?_, rfl, rfl⟩
  · rw [x, hsp, Regs.get_set_same]
    exact Memory.read_write_same s.mem s.sp.toNat _
  · rw [Regs.get_set, if_neg hk.symm]
    rfl
end

section
/-! The family of an instruction, and what a commit is by family: exactly which fields an instruction
writes, and that it leaves the others (the frames of 42_move, 41_arithmetic and 44_stack). -/

namespace Sys2Proof.Machine

open Sys2Proof.Claims

/-! ## Families -/

/-- The families of instructions, with the index of the register written where one is. -/
inductive Family where
  | stop
  | move (k : Nat)
  | arith (k : Nat)
  | compare
  | jump
  | push
  | pop (k : Nat)

/-- The one family of an instruction. -/
def family : Instr → Family
  | .stop => .stop
  | .movRegToReg d _ | .movRegaddrToReg d _ => .move d.toNat
  | .movNumToReg d _ | .movAddrToReg d _ => .move d.toNat
  | .addRegToReg d _ | .addRegaddrToReg d _ | .subRegFromReg d _ | .subRegaddrFromReg d _ => .arith d.toNat
  | .addNumToReg d _ | .addAddrToReg d _ | .subNumFromReg d _ | .subAddrFromReg d _ => .arith d.toNat
  | .incReg r | .decReg r => .arith r.toNat
  | .cmpRegWithReg _ _ | .cmpRegaddrWithReg _ _ | .cmpNumWithReg _ _ | .cmpAddrWithReg _ _ => .compare
  | .jmpReg _ | .jcReg _ | .jncReg _ | .jzReg _ | .jnzReg _ => .jump
  | .jmpAddr _ | .jcAddr _ | .jncAddr _ | .jzAddr _ | .jnzAddr _ => .jump
  | .pushReg _ | .pushRegaddr _ | .pushAddr _ | .pushNum _ => .push
  | .popReg r => .pop r.toNat

theorem movDest_eq_some {i : Instr} {k : Nat} : movDest i = some k ↔ family i = .move k := by
  cases i <;> simp [movDest, family]

theorem arithDest_eq_some {i : Instr} {k : Nat} : arithDest i = some k ↔ family i = .arith k := by
  cases i <;> simp [arithDest, family]

theorem isCmp_iff {i : Instr} : isCmp i = true ↔ family i = .compare := by
  cases i <;> simp [isCmp, family]

theorem isPush_iff {i : Instr} : isPush i = true ↔ family i = .push := by
  cases i <;> simp [isPush, family]

theorem popDest_eq_some {i : Instr} {k : Nat} : popDest i = some k ↔ family i = .pop k := by
  cases i <;> simp [popDest, family]

theorem family_of_jumpCondition {s : State} {i : Instr} {c : Bool} (h : jumpCondition s i = some c) :
    family i = .jump := by
  cases i <;> simp_all [jumpCondition, family]

/-! ## Commits by family -/

/-- What a commit of each family is: every field it writes, the value written and the raw result left
open. -/
def CommitsAs (s : State) (len : Nat) (t : State) : Family → Prop
  | .stop => t = s.halt
  | .move k => ∃ v, t = movTo s k v len
  | .arith k => ∃ raw, t = s.commitArith (regNamed k) raw len
  | .compare => ∃ raw, t = s.commitCompare raw len
  | .jump => t = s.setPc t.pc
  | .push => 0 ≤ s.sp ∧ s.sp < s.config.memSize ∧
      ∃ v, t = { s with mem := s.mem.write s.sp.toNat v, sp := s.sp - 1, pc := s.pc + len }
  | .pop k => ∃ v, t = { s with regs := s.regs.set (regNamed k) v, sp := s.sp + 1, pc := s.pc + len }

theorem Commits.commitsAs {s t : State} {i : Instr} (h : Commits s i t) :
    CommitsAs s i.length t (family i) := by
  cases h with
  | halt hi => exact hi ▸ rfl
  | move hi hrd v =>
    rw [movDest_eq_some.1 hi]
    exact ⟨v, regNamed_of_regOfIndex hrd ▸ rfl⟩
  | arith hi hrd raw =>
    rw [arithDest_eq_some.1 hi]
    exact ⟨raw, regNamed_of_regOfIndex hrd ▸ rfl⟩
  | compare hi raw =>
    rw [isCmp_iff.1 hi]
    exact ⟨raw, rfl⟩
  | jump hi | fallThrough hi =>
    rw [family_of_jumpCondition hi]
    rfl
  | push hi ht =>
    obtain ⟨h0, hN, rfl⟩ := State.push_eq_ok.1 ht
    rw [isPush_iff.1 hi]
    exact ⟨h0, hN, _, rfl⟩
  | pop hi hrd ht =>
    obtain ⟨-, -, rfl⟩ := State.pop_eq_ok.1 ht
    obtain rfl := regNamed_of_regOfIndex hrd
    rw [popDest_eq_some.1 hi]
    exact ⟨_, rfl⟩

/-- How an instruction of a known family ends. -/
theorem exec_cases_of_family {i : Instr} {s t : State} {f : Family} (hi : family i = f)
    (h : exec i s = .next t) : CommitsAs s i.length t f ∨ ∃ r, t = faulted s r :=
  (exec_cases h).imp_left fun hc => hi ▸ hc.commitsAs

/-! ## Who writes what -/

/-- Only the arithmetic families write a flag. -/
theorem Commits.flags_cases {s t : State} {i : Instr} (h : Commits s i t) :
    (t.carry = s.carry ∧ t.zero = s.zero) ∨ ((arithDest i).isSome || isCmp i) = true := by
  cases h with
  | arith hi | compare hi => exact .inr (by simp [hi])
  | halt | move | jump | fallThrough => exact .inl ⟨rfl, rfl⟩
  | push _ ht => obtain ⟨-, -, rfl⟩ := State.push_eq_ok.1 ht; exact .inl ⟨rfl, rfl⟩
  | pop _ _ ht => obtain ⟨-, -, rfl⟩ := State.pop_eq_ok.1 ht; exact .inl ⟨rfl, rfl⟩

/-- Only PUSH writes a byte, and only the one at SP. -/
theorem Commits.cell_cases {s t : State} {i : Instr} (h : Commits s i t) (a : Nat) :
    cell t a = cell s a ∨ (isPush i = true ∧ s.sp = a) := by
  cases h with
  | halt | move | arith | compare | jump | fallThrough => exact .inl rfl
  | push hi ht =>
    obtain ⟨h0, -, rfl⟩ := State.push_eq_ok.1 ht
    by_cases ha : a = s.sp.toNat
    · exact .inr ⟨hi, by omega⟩
    · exact .inl (Memory.read_write_other s.mem _ ha)
  | pop _ _ ht => obtain ⟨-, -, rfl⟩ := State.pop_eq_ok.1 ht; exact .inl rfl

/-- Only PUSH and POP move SP, each by one. -/
theorem Commits.sp_cases {s t : State} {i : Instr} (h : Commits s i t) : t.sp = s.sp ∨
    (isPush i = true ∧ t.sp = s.sp - 1) ∨ ((popDest i).isSome = true ∧ t.sp = s.sp + 1) := by
  cases h with
  | halt | move | arith | compare | jump | fallThrough => exact .inl rfl
  | push hi ht => obtain ⟨-, -, rfl⟩ := State.push_eq_ok.1 ht; exact .inr (.inl ⟨hi, rfl⟩)
  | pop hi _ ht =>
    obtain ⟨-, -, rfl⟩ := State.pop_eq_ok.1 ht
    exact .inr (.inr ⟨hi ▸ rfl, rfl⟩)

/-- A tick commits the instruction fetched, or writes at most the machine state and the fault record. -/
theorem commits_or_status_only {s t : State} (h : step s = .next t) :
    (∃ i, fetch s = .ok i ∧ Commits s i t) ∨
      ∃ st record, t = { s with status := st, faultInfo := record } := by
  cases hs : s.status with
  | faulted => simp [step_of_faulted hs] at h
  | halted =>
    rw [step_of_halted hs] at h
    cases h
    exact .inr ⟨_, _, rfl⟩
  | ready =>
    obtain ⟨u, hu, hcases⟩ := step_ready_cases hs
    cases hu.symm.trans h
    rcases hcases with ⟨-, rfl⟩ | ⟨f, -, rfl⟩ | ⟨i, hf, hc | ⟨f, rfl⟩⟩
    · exact .inr ⟨_, _, rfl⟩
    · exact .inr ⟨_, _, rfl⟩
    · exact .inl ⟨i, hf, hc⟩
    · exact .inr ⟨_, _, rfl⟩

/-! ## Flags from scratch -/

/-- Phases that end in a commit and complete from `s` complete alike from any state where they read the
same operand and commit the same. -/
theorem conclude_pure_of_completes {α : Type} {s s' t : State} {p : Except FaultRecord α} {g : α → State}
    (h : conclude s (p >>= fun a => pure (g a)) = .next t) (ht : t.status ≠ .faulted) :
    conclude s' (p >>= fun a => pure (g a)) = .next t := by
  cases p with
  | ok a => exact h
  | error f =>
    cases h
    exact absurd rfl ht

/-- An arithmetic instruction reads its operand from the registers and memory, and its commit writes both
flags over. -/
theorem exec_with_flags {i : Instr} {s t : State} (hi : ((arithDest i).isSome || isCmp i) = true)
    (h : exec i s = .next t) (ht : t.status ≠ .faulted) (c z : Bool) :
    exec i { s with carry := c, zero := z } = .next t := by
  cases i with
  | addRegToReg | addRegaddrToReg | addNumToReg | addAddrToReg | subRegFromReg | subRegaddrFromReg
  | subNumFromReg | subAddrFromReg | cmpRegWithReg | cmpRegaddrWithReg | cmpNumWithReg | cmpAddrWithReg
  | incReg | decReg => exact conclude_pure_of_completes h ht
  | _ => simp [arithDest, isCmp] at hi

end Sys2Proof.Machine
end

section
/-! The statements about what an instruction leaves unchanged. -/

open Sys2Proof Sys2Proof.Machine Sys2Proof.Claims

/-- Settles O36: a MOV is `movTo` its destination, or a fault. -/
theorem frameMove : Obligations.FrameMove := by
  intro i d s t hi h
  rcases exec_cases_of_family (movDest_eq_some.1 hi) h with ⟨v, rfl⟩ | ⟨f, rfl⟩
  · exact ⟨fun q hq => (Regs.get_set ..).trans (if_neg hq.symm), rfl, rfl, rfl, fun _ => rfl, rfl,
      .inl ⟨rfl, rfl⟩⟩
  · exact ⟨fun _ _ => rfl, rfl, rfl, rfl, fun _ => rfl, rfl, .inr ⟨f, rfl⟩⟩

/-- Settles O37: ADD, SUB, INC and DEC end in `State.commitArith`, or in a fault. -/
theorem frameArith : Obligations.FrameArith := by
  intro i d s t hi h
  rcases exec_cases_of_family (arithDest_eq_some.1 hi) h with ⟨raw, rfl⟩ | ⟨f, rfl⟩
  · exact ⟨fun q hq => (Regs.get_set ..).trans (if_neg hq.symm), rfl, fun _ => rfl, rfl,
      .inl ⟨rfl, rfl⟩⟩
  · exact ⟨fun _ _ => rfl, rfl, fun _ => rfl, rfl, .inr ⟨f, rfl⟩⟩

/-- Settles O38: CMP ends in `State.commitCompare`, or in a fault. -/
theorem frameCompare : Obligations.FrameCompare := by
  intro i s t hi h
  rcases exec_cases_of_family (isCmp_iff.1 hi) h with ⟨raw, rfl⟩ | ⟨f, rfl⟩
  · exact ⟨fun _ => rfl, rfl, fun _ => rfl, rfl, .inl ⟨rfl, rfl⟩⟩
  · exact ⟨fun _ => rfl, rfl, fun _ => rfl, rfl, .inr ⟨f, rfl⟩⟩

/-- Settles O40: a PUSH that completes has SP inside memory and stores there; a fault stores nowhere. -/
theorem framePush : Obligations.FramePush := by
  intro i s t hi h
  rcases exec_cases_of_family (isPush_iff.1 hi) h with ⟨h0, hN, v, rfl⟩ | ⟨f, rfl⟩
  · refine ⟨fun _ => rfl, rfl, rfl, .inr rfl, fun a ha b hb => ?_, fun hout => by omega, rfl,
      .inl ⟨rfl, rfl⟩⟩
    exact Memory.read_write_other s.mem v (by omega)
  · exact ⟨fun _ => rfl, rfl, rfl, .inl rfl, fun _ _ _ _ => rfl, fun _ _ => rfl, rfl, .inr ⟨f, rfl⟩⟩

/-- Settles O41: POP writes its register and SP, or takes a fault. -/
theorem framePop : Obligations.FramePop := by
  intro i d s t hi h
  rcases exec_cases_of_family (popDest_eq_some.1 hi) h with ⟨v, rfl⟩ | ⟨f, rfl⟩
  · exact ⟨fun q hq => (Regs.get_set ..).trans (if_neg hq.symm), rfl, rfl, .inr rfl, fun _ => rfl, rfl,
      .inl ⟨rfl, rfl⟩⟩
  · exact ⟨fun _ _ => rfl, rfl, rfl, .inl rfl, fun _ => rfl, rfl, .inr ⟨f, rfl⟩⟩

/-- Settles O42: what differs after a tick was written by the commit of the instruction fetched. -/
theorem whoWritesWhat : Obligations.WhoWritesWhat := by
  intro s t h
  rcases commits_or_status_only h with ⟨i, hf, hc⟩ | ⟨st, record, rfl⟩
  · refine ⟨fun hne => ⟨i, hf, ?_⟩, fun a hne => ⟨i, hf, ?_⟩, fun hne => ⟨i, hf, ?_⟩, hc.config⟩
    · exact hc.flags_cases.resolve_left fun ⟨hcarry, hzero⟩ => hne.elim (· hcarry) (· hzero)
    · exact (hc.cell_cases a).resolve_left hne
    · exact hc.sp_cases.resolve_left hne
  · simp [cell]

/-- Settles O13; a fault leaves every flag, and the commit of an instruction that completes is no fault. -/
theorem noFlagCarriedOver : Obligations.NoFlagCarriedOver := by
  intro i s t hi hs h
  refine ⟨fun ht => exec_with_flags hi h (by simp [ht]), fun ht => ?_⟩
  rcases exec_cases h with hc | ⟨f, rfl⟩
  · rcases hc.status with hst | hst <;> simp [hst, hs] at ht
  · exact ⟨rfl, rfl⟩
end

section
/-! The first fault an instruction meets: its register checks in their order, then its data read, then
the address it checks last (60_exceptions R320). What an instruction does is that fault, or a state that
is not Faulted. -/

namespace Sys2Proof.Machine

open Sys2Proof.Claims

/-! ## The fault a state ends in -/

/-- `t` is `s` with the given fault taken, or, where there is none, a state the machine goes on from or
halts in. -/
inductive FaultsWith (s : State) : Option FaultRecord → State → Prop
  | fault (f : FaultRecord) : FaultsWith s (some f) (faulted s f)
  | completes {t : State} (h : t.status = s.status ∨ t.status = .halted) : FaultsWith s none t

theorem FaultsWith.of_status {s t : State} (h : t.status = s.status) : FaultsWith s none t :=
  .completes (.inl h)

theorem FaultsWith.status_ne_faulted {s t : State} (h : FaultsWith s none t) (hs : s.status = .ready) :
    t.status ≠ .faulted := by
  obtain h | h := h
  rcases h with h | h <;> simp [h, hs]

/-! ## The checks, one by one -/

/-- The fault of the first register field above 3, or else `f`. -/
def fieldFault (ks : List Nat) (f : Option FaultRecord) : Option FaultRecord :=
  match ks.find? fun k => decide (3 < k) with
  | some k => some (.registerFault k)
  | none => f

/-- The fault of a data read at N or above, or else `f`. -/
def readFault (s : State) (a : Option Nat) (f : Option FaultRecord) : Option FaultRecord :=
  match a.filter fun a => decide (s.config.memSize ≤ a) with
  | some a => some (.addressFault a)
  | none => f

/-- The fault of an address outside 0..N-1. -/
def rangeFault (s : State) (a : Option Int) : Option FaultRecord :=
  (a.filter fun a => decide (a < 0) || decide ((s.config.memSize : Int) ≤ a)).map .addressFault

/-- The fault of an instruction's phases 3 to 6, its bytes fetched. -/
def execFault (s : State) (o : Opcode) (b1 b2 : Byte) : Option FaultRecord :=
  fieldFault (fieldsOf o.format b1) (readFault s (dataAddress s o b1 b2) (rangeFault s (finalAddress s o b1)))

theorem readFault_of_lt {s : State} {a : Nat} (ha : a < s.config.memSize) (f : Option FaultRecord) :
    readFault s (some a) f = f := by
  rw [readFault, Option.filter_some_neg (by simpa using ha)]

theorem readFault_of_ge {s : State} {a : Nat} (ha : s.config.memSize ≤ a) (f : Option FaultRecord) :
    readFault s (some a) f = some (.addressFault a) := by
  rw [readFault, Option.filter_some_pos (by simpa using ha)]

theorem rangeFault_of_in {s : State} {a : Int} (ha : ¬(a < 0 ∨ (s.config.memSize : Int) ≤ a)) :
    rangeFault s (some a) = none := by
  rw [rangeFault, Option.filter_some_neg (by simpa using ha), Option.map_none]

theorem rangeFault_of_out {s : State} {a : Int} (ha : a < 0 ∨ (s.config.memSize : Int) ≤ a) :
    rangeFault s (some a) = some (.addressFault a) := by
  rw [rangeFault, Option.filter_some_pos (by simpa using ha), Option.map_some]

theorem FaultsWith.afterChecks {s t : State} {f : Option FaultRecord} (ks : List Nat)
    (h : FaultsWith s f t) : FaultsWith s (fieldFault ks f) (afterChecks s t ks) := by
  unfold fieldFault
  split
  · next k hk => exact afterChecks_of_find?_eq_some hk ▸ .fault _
  · next hk => rwa [afterChecks_of_forall_le (by simpa using hk)]

theorem FaultsWith.reading {s : State} {k : Byte → State} {f : Option FaultRecord} (a : Nat)
    (h : ∀ v, FaultsWith s f (k v)) : FaultsWith s (readFault s (some a) f) (reading s a k) := by
  rcases Nat.lt_or_ge a s.config.memSize with ha | ha
  · rw [readFault_of_lt ha, reading_of_lt ha]
    exact h _
  · rw [readFault_of_ge ha, Claims.reading, if_neg ha.not_gt]
    exact .fault _

theorem FaultsWith.jumpOn (s : State) (c : Bool) (v : Byte) :
    FaultsWith s (rangeFault s (if c then some (v.toNat : Int) else none)) (jumpOn s c v) := by
  cases c with
  | false => exact .of_status rfl
  | true =>
    rw [if_pos rfl, Claims.jumpOn, if_pos rfl]
    split
    · next hv => exact rangeFault_of_in (s := s) (a := v.toNat) (by omega) ▸ .of_status rfl
    · next hv => exact rangeFault_of_out (s := s) (a := v.toNat) (by omega) ▸ .fault _

/-- The same on a flag's absence. -/
theorem FaultsWith.jumpOn_not (s : State) (c : Bool) (v : Byte) :
    FaultsWith s (rangeFault s (if c then none else some (v.toNat : Int))) (Claims.jumpOn s (!c) v) := by
  cases c with
  | false => exact .jumpOn s true v
  | true => exact .jumpOn s false v

theorem FaultsWith.pushed (s : State) (v : Byte) :
    FaultsWith s (rangeFault s (some s.sp)) (pushed s v) := by
  unfold Claims.pushed
  split
  · next hout => exact rangeFault_of_out hout ▸ .fault _
  · next hin => exact rangeFault_of_in hin ▸ .of_status rfl

theorem FaultsWith.popped (s : State) (k : Nat) :
    FaultsWith s (rangeFault s (some (s.sp + 1))) (popped s k) := by
  unfold Claims.popped
  split
  · next hout => exact rangeFault_of_out hout ▸ .fault _
  · next hin => exact rangeFault_of_in hin ▸ .of_status rfl

/-! ## Every instruction at once -/

theorem registerFields_assemble (o : Opcode) (b1 b2 : Byte) :
    (o.assemble b1 b2).registerFields = fieldsOf o.format b1 := by
  cases o with
  | movRegToReg | movRegaddrToReg | addRegToReg | addRegaddrToReg | subRegFromReg | subRegaddrFromReg
  | cmpRegWithReg | cmpRegaddrWithReg =>
    exact congrArg₂ (fun d r => [d, r]) (toNat_highNibble b1) (toNat_lowNibble b1)
  | _ => rfl

/-- After its register checks an instruction meets the fault of its data read or of the address it checks
last, or none. -/
theorem exec_assemble_eq (o : Opcode) (b1 b2 : Byte) (s : State) :
    ∃ t, exec (o.assemble b1 b2) s = .next (afterChecks s t (o.assemble b1 b2).registerFields) ∧
      FaultsWith s (readFault s (dataAddress s o b1 b2) (rangeFault s (finalAddress s o b1))) t := by
  cases o with
  | stop => exact ⟨s.halt, rfl, .completes (.inr rfl)⟩
  | movRegToReg | addRegToReg | subRegFromReg | cmpRegWithReg =>
    exact ⟨_, conclude_operandReg _ _ s _, .of_status rfl⟩
  | movRegaddrToReg | addRegaddrToReg | subRegaddrFromReg | cmpRegaddrWithReg =>
    refine ⟨reading s _ _, conclude_operandRegaddr _ _ s _, ?_⟩
    rw [toNat_lowNibble]
    exact .reading _ fun _ => .of_status rfl
  | movNumToReg | addNumToReg | subNumFromReg | cmpNumWithReg =>
    exact ⟨_, conclude_operandNum b1 b2 s _, .of_status rfl⟩
  | movAddrToReg | addAddrToReg | subAddrFromReg | cmpAddrWithReg =>
    exact ⟨reading s _ _, conclude_operandAddr b1 b2 s _, .reading _ fun _ => .of_status rfl⟩
  | incReg | decReg => exact ⟨_, conclude_operandSole b1 s _, .of_status rfl⟩
  | jmpReg => exact ⟨_, conclude_jumpReg b1 s true, .jumpOn s true _⟩
  | jmpAddr => exact ⟨_, conclude_jumpIf s true b1, .jumpOn s true b1⟩
  | jcReg => exact ⟨_, conclude_jumpReg b1 s s.carry, .jumpOn s s.carry _⟩
  | jcAddr => exact ⟨_, conclude_jumpIf s s.carry b1, .jumpOn s s.carry b1⟩
  | jzReg => exact ⟨_, conclude_jumpReg b1 s s.zero, .jumpOn s s.zero _⟩
  | jzAddr => exact ⟨_, conclude_jumpIf s s.zero b1, .jumpOn s s.zero b1⟩
  | jncReg => exact ⟨_, conclude_jumpReg b1 s !s.carry, .jumpOn_not s s.carry _⟩
  | jncAddr => exact ⟨_, conclude_jumpIf s (!s.carry) b1, .jumpOn_not s s.carry b1⟩
  | jnzReg => exact ⟨_, conclude_jumpReg b1 s !s.zero, .jumpOn_not s s.zero _⟩
  | jnzAddr => exact ⟨_, conclude_jumpIf s (!s.zero) b1, .jumpOn_not s s.zero b1⟩
  | pushReg => exact ⟨_, conclude_operandSole_bind (conclude_push s _), .pushed s _⟩
  | pushRegaddr =>
    exact ⟨_, conclude_operandSole_bind (conclude_memRead (conclude_push s)), .reading _ (.pushed s)⟩
  | pushAddr => exact ⟨_, conclude_memRead (conclude_push s), .reading _ (.pushed s)⟩
  | pushNum => exact ⟨_, conclude_push s b1, .pushed s b1⟩
  | popReg => exact ⟨_, conclude_regCheck (conclude_pop s b1.toNat), .popped s _⟩

theorem exec_faultsWith (o : Opcode) (b1 b2 : Byte) (s : State) :
    ∃ t, exec (o.assemble b1 b2) s = .next t ∧ FaultsWith s (execFault s o b1 b2) t := by
  obtain ⟨t, h, ht⟩ := exec_assemble_eq o b1 b2 s
  exact ⟨_, h, registerFields_assemble o b1 b2 ▸ ht.afterChecks _⟩

/-! ## The tick of a Ready machine below N -/

theorem firstFault_of_unknown {s : State} (ho : s.config.opcodeMap.opcodeOf (cell s s.pc) = none) :
    firstFault s = some (.unknownOpcodeFault (cell s s.pc)) := by
  simp [firstFault, ho]

/-- The operand byte that is missing first is the one at N. -/
theorem firstFault_past_end {s : State} {o : Opcode} (hpc : s.pc < s.config.memSize)
    (ho : s.config.opcodeMap.opcodeOf (cell s s.pc) = some o)
    (hlen : s.config.memSize < s.pc + o.length) :
    firstFault s = some (.addressFault s.config.memSize) := by
  have hle := o.length_le_three
  simp only [firstFault, ho]
  split
  · next h1 =>
    have hN : s.pc + 1 = s.config.memSize := by omega
    rw [hN]
  · next h1 =>
    have hN : s.pc + 2 = s.config.memSize := by omega
    rw [if_pos (by omega), hN]

theorem firstFault_of_fetched {s : State} {o : Opcode}
    (ho : s.config.opcodeMap.opcodeOf (cell s s.pc) = some o)
    (hlen : s.pc + o.length ≤ s.config.memSize) :
    firstFault s = execFault s o (cell s (s.pc + 1)) (cell s (s.pc + 2)) := by
  simp only [firstFault, ho]
  rw [if_neg (by omega), if_neg (by omega)]
  rfl

/-- A tick reports the first fault of the list of R320, or none (60_exceptions section 2). -/
theorem step_faultsWith {s : State} (hs : s.status = .ready) (hpc : s.pc < s.config.memSize) :
    ∃ t, step s = .next t ∧ FaultsWith s (firstFault s) t := by
  cases ho : s.config.opcodeMap.opcodeOf (cell s s.pc) with
  | none =>
    rw [firstFault_of_unknown ho]
    exact ⟨_, step_of_fetch_error hs hpc (fetch_of_unknown hpc ho), .fault _⟩
  | some o =>
    rcases Nat.lt_or_ge s.config.memSize (s.pc + o.length) with hlen | hlen
    · rw [firstFault_past_end hpc ho hlen]
      exact ⟨_, step_of_fetch_error hs hpc (fetch_past_end hpc ho hlen), .fault _⟩
    · rw [firstFault_of_fetched ho hlen, step_of_fetch_ok hs hpc (fetch_of_opcodeOf ho hlen)]
      exact exec_faultsWith o _ _ s

/-! ## Which faults there are -/

theorem fieldFault_eq_some {ks : List Nat} {f : Option FaultRecord} {r : FaultRecord}
    (h : fieldFault ks f = some r) : (∃ k ∈ ks, 3 < k ∧ r = .registerFault k) ∨ f = some r := by
  unfold fieldFault at h
  split at h
  · next k hk =>
    exact .inl ⟨k, List.mem_of_find?_eq_some hk, by simpa using List.find?_some hk, by simpa using h.symm⟩
  · exact .inr h

theorem readFault_eq_some {s : State} {a : Option Nat} {f : Option FaultRecord} {r : FaultRecord}
    (h : readFault s a f = some r) :
    (∃ v, a = some v ∧ s.config.memSize ≤ v ∧ r = .addressFault v) ∨ f = some r := by
  unfold readFault at h
  split at h
  · next v hv =>
    obtain ⟨ha, hN⟩ := Option.filter_eq_some_iff.1 hv
    exact .inl ⟨v, ha, by simpa using hN, by simpa using h.symm⟩
  · exact .inr h

theorem rangeFault_eq_some {s : State} {a : Option Int} {r : FaultRecord} (h : rangeFault s a = some r) :
    ∃ v, a = some v ∧ (v < 0 ∨ (s.config.memSize : Int) ≤ v) ∧ r = .addressFault v := by
  obtain ⟨v, hv, hr⟩ := Option.map_eq_some_iff.1 h
  obtain ⟨ha, hout⟩ := Option.filter_eq_some_iff.1 hv
  exact ⟨v, ha, by simpa using hout, hr.symm⟩

theorem execFault_eq_some {s : State} {o : Opcode} {b1 b2 : Byte} {r : FaultRecord}
    (h : execFault s o b1 b2 = some r) :
    (∃ k ∈ fieldsOf o.format b1, 3 < k ∧ r = .registerFault k) ∨
    (∃ a, dataAddress s o b1 b2 = some a ∧ s.config.memSize ≤ a ∧ r = .addressFault a) ∨
    ∃ a, finalAddress s o b1 = some a ∧ (a < 0 ∨ (s.config.memSize : Int) ≤ a) ∧ r = .addressFault a :=
  (fieldFault_eq_some h).imp_right fun h => (readFault_eq_some h).imp_right rangeFault_eq_some

/-- A data address is a byte. -/
theorem dataAddress_le {s : State} {o : Opcode} {b1 b2 : Byte} {a : Nat}
    (h : dataAddress s o b1 b2 = some a) : a ≤ 255 := by
  cases o with
  | movRegaddrToReg | addRegaddrToReg | subRegaddrFromReg | cmpRegaddrWithReg | pushRegaddr
  | movAddrToReg | addAddrToReg | subAddrFromReg | cmpAddrWithReg | pushAddr =>
    exact Option.some.inj h ▸ byte_le _
  | _ => simp [dataAddress] at h

/-- The address checked last is a byte, the target of a jump, but in PUSH and POP. -/
theorem finalAddress_cases {s : State} {o : Opcode} {b1 : Byte} {a : Int} (b2 : Byte)
    (h : finalAddress s o b1 = some a) : (0 ≤ a ∧ a ≤ 255) ∨
      (isPush (o.assemble b1 b2) = true ∧ a = s.sp) ∨
      ((popDest (o.assemble b1 b2)).isSome = true ∧ a = s.sp + 1) := by
  have hb := byte_le b1
  have hx := byte_le (x s b1.toNat)
  cases o with
  | jmpReg | jmpAddr | jcReg | jcAddr | jncReg | jncAddr | jzReg | jzAddr | jnzReg | jnzAddr =>
    simp only [finalAddress, Option.ite_none_right_eq_some, Option.ite_none_left_eq_some,
      Option.some.injEq] at h
    omega
  | pushReg | pushRegaddr | pushAddr | pushNum => exact .inr (.inl ⟨rfl, (Option.some.inj h).symm⟩)
  | popReg => exact .inr (.inr ⟨rfl, (Option.some.inj h).symm⟩)
  | _ => simp [finalAddress] at h

theorem exec_faultsWith_of_instr (i : Instr) (s : State) : ∃ b1 b2 t, i = i.opcode.assemble b1 b2 ∧
    exec i s = .next t ∧ FaultsWith s (execFault s i.opcode b1 b2) t := by
  obtain ⟨b1, b2, hi⟩ := exists_assemble i
  obtain ⟨t, hexec, ht⟩ := exec_faultsWith i.opcode b1 b2 s
  exact ⟨b1, b2, t, hi, hi ▸ hexec, ht⟩

end Sys2Proof.Machine
end

section
/-! The statements about which fault a tick reports, and about what a fetch sees. -/

open Sys2Proof Sys2Proof.Machine Sys2Proof.Claims

/-- Settles O49, by `step_faultsWith`. -/
theorem faultPriority : Obligations.FaultPriority := by
  refine fun s => ⟨step_of_faulted, fun hs hpc => ?_⟩
  obtain ⟨t, hstep, ht⟩ := step_faultsWith hs hpc
  refine ⟨fun f hf => ?_, fun hnone => ?_⟩
  · rw [hf] at ht
    cases ht
    exact hstep
  · rw [hnone] at ht
    exact ⟨t, hstep, ht.status_ne_faulted hs⟩

/-- Settles O50: the fault is the one of `execFault`, and a data address or a jump target is a byte. -/
theorem noAddressFaultInFullMemory : Obligations.NoAddressFaultInFullMemory := by
  intro i s t hN hs hpush hpop h hfault
  obtain ⟨b1, b2, u, hi, hexec, hu⟩ := exec_faultsWith_of_instr i s
  cases hexec.symm.trans h
  cases hf : execFault s i.opcode b1 b2 with
  | none =>
    rw [hf] at hu
    exact absurd hfault (hu.status_ne_faulted hs)
  | some r =>
    rw [hf] at hu
    cases hu
    rcases execFault_eq_some hf with ⟨k, -, hk, rfl⟩ | ⟨a, ha, hle, -⟩ | ⟨a, ha, hout, -⟩
    · exact ⟨k, hk, rfl⟩
    · have := dataAddress_le ha
      omega
    · have hcases := finalAddress_cases b2 ha
      rw [← hi, hpush, hpop] at hcases
      rcases hcases with hbyte | ⟨hfalse, -⟩ | ⟨hfalse, -⟩
      · omega
      · simp at hfalse
      · simp at hfalse

/-- Settles O46. -/
theorem stickyFault : Obligations.StickyFault := fun s m hs =>
  ⟨step_of_faulted (s := { s with mem := m }) hs, tickResponse_step_of_faulted hs⟩

/-- Settles O53: the store is made in the tick of the PUSH, and the byte it leaves at the new IP is the
opcode byte of the next fetch. -/
theorem fetchCoherence : Obligations.FetchCoherence := by
  intro s h hpc h0 hN
  obtain ⟨hs, hmap, -, -⟩ := id h
  obtain ⟨-, -, -, hpushNum⟩ := pushTick
  generalize hb : cell s (s.pc + 1) = b
  have hstep : step s = .next (stored s b) :=
    (hpushNum s h).trans (by simp only [if_neg hpc.not_ge, pushed_eq_stored h0 hN, hb])
  have hcell : cell (stored s b) s.sp.toNat = b := Memory.read_write_same s.mem s.sp.toNat b
  refine ⟨_, hstep, hcell, rfl, fun hsp hunknown => ?_⟩
  have hsp' : (stored s b).pc = s.sp.toNat := by simp only [stored]; omega
  have hin : (stored s b).pc < s.config.memSize := by omega
  have hnext : cell (stored s b) (stored s b).pc = b := by rw [hsp', hcell]
  have ho : s.config.opcodeMap.opcodeOf b = none := hmap ▸ OpcodeMap.default_opcodeOf_eq_none.2 hunknown
  have hfetch := fetch_of_unknown hin (by rw [← cell, hnext]; exact ho)
  rw [← cell, hnext] at hfetch
  exact step_of_fetch_error hs hin hfetch
end

section
/-! The loader port in the words of memory: what it accepts, what it changes, and what memory reads after
(10_state R40). -/

namespace Sys2Proof.Machine

/-! ## Reads after a load -/

theorem Memory.read_load_inside {n : Nat} (m : Memory) {a : Nat} {bytes : List Byte}
    (hN : a + bytes.length ≤ n) {k : Nat} (hk : k < bytes.length) :
    (Memory.load n m a bytes).read (a + k) = bytes[k] := by
  rw [Memory.read_load, dif_pos ⟨by omega, by omega, by omega⟩]
  simp only [Nat.add_sub_cancel_left]

theorem Memory.read_load_outside (n : Nat) (m : Memory) {a b : Nat} {bytes : List Byte}
    (hb : b < a ∨ a + bytes.length ≤ b) : (Memory.load n m a bytes).read b = m.read b := by
  rw [Memory.read_load, dif_neg (by omega)]

/-! ## The two operations -/

theorem State.loaderWrite_eq_ok {s t : State} {a v : Int} : s.loaderWrite a v = .ok t ↔
    0 ≤ a ∧ a < s.config.memSize ∧ t = { s with mem := s.mem.write a.toNat (clampByte v) } := by
  unfold State.loaderWrite
  split
  · next hout => exact ⟨(nomatch ·), fun ⟨_, _, _⟩ => by omega⟩
  · next hin =>
    exact ⟨fun h => ⟨by omega, by omega, by cases h; rfl⟩, fun ⟨_, _, ht⟩ => ht ▸ rfl⟩

theorem State.loaderWrite_of_out {s : State} {a : Int} (h : a < 0 ∨ (s.config.memSize : Int) ≤ a)
    (v : Int) : s.loaderWrite a v = .error (.addressFault a) := if_pos h

theorem State.bulkLoad_eq_ok {s t : State} {a : Int} {bytes : List Byte} : s.bulkLoad a bytes = .ok t ↔
    0 ≤ a ∧ a + bytes.length ≤ s.config.memSize ∧
      t = { s with mem := Memory.load s.config.memSize s.mem a.toNat bytes } := by
  unfold State.bulkLoad
  split
  · next hout => exact ⟨(nomatch ·), fun ⟨_, _, _⟩ => by omega⟩
  · next hin =>
    exact ⟨fun h => ⟨by omega, by omega, by cases h; rfl⟩, fun ⟨_, _, ht⟩ => ht ▸ rfl⟩

theorem State.bulkLoad_of_out {s : State} {a : Int} {bytes : List Byte}
    (h : a < 0 ∨ (s.config.memSize : Int) < a + bytes.length) :
    s.bulkLoad a bytes = .error (.loadAddressFault a bytes.length) := if_pos h

theorem toNat_clampByte (v : Int) : ((clampByte v).toNat : Int) = min (max v 0) 255 :=
  toNat_ofInt_of_byte (by omega) (by omega)

end Sys2Proof.Machine
end

section
/-! The invariant: of a Ready machine, of one that halts or takes a fault, and of one whose instruction
commits. -/

namespace Sys2Proof.Machine

open Sys2Proof.Claims

/-! ## By the machine state -/

/-- What the invariant asks of a Ready machine. -/
theorem inv_of_ready {s : State} (hs : s.status = .ready) (hinfo : s.faultInfo = none)
    (hlegal : s.config.legal = true) (hwf : s.mem.wf = true)
    (hbelow : Memory.below s.config.memSize s.mem = true) (hpc : s.pc ≤ s.config.memSize)
    (hge : -1 ≤ s.sp) (hlt : s.sp < s.config.memSize) (hflags : (s.carry && s.zero) = false) : s.Inv where
  config_legal := hlegal
  mem_wf := hwf
  mem_below := hbelow
  pc_le := hpc
  sp_ge := hge
  sp_lt := hlt
  flags_exclusive := hflags
  faulted_iff := by simp [hs, hinfo]
  record_valid := by simp [hinfo]
  faulted_pc := by simp [hs]
  halted_at := by simp [hs]

theorem State.Inv.faultInfo_eq_none {s : State} (h : s.Inv) (hs : s.status = .ready) :
    s.faultInfo = none := by
  simpa [hs] using h.faulted_iff

/-- A Ready machine halts at the two places where a Halted one may stand. -/
theorem State.Inv.halt {s : State} (h : s.Inv) (hs : s.status = .ready) (hat : s.config.memSize ≤ s.pc ∨
    s.config.opcodeMap.opcodeOf (s.mem.read s.pc) = some .stop) : s.halt.Inv :=
  { h with
    faulted_iff := by simp [h.faultInfo_eq_none hs]
    faulted_pc := by simp
    halted_at := fun _ => hat }

/-- A fault is taken below N, and its record is of a fault the machine can raise. -/
theorem State.Inv.faulted {s : State} (h : s.Inv) (hpc : s.pc < s.config.memSize) {f : FaultRecord}
    (hf : f.valid s.config = true) : (faulted s f).Inv :=
  { h with
    faulted_iff := by simp [Claims.faulted]
    record_valid := fun g hg => Option.some.inj hg ▸ hf
    faulted_pc := fun _ => hpc
    halted_at := by simp [Claims.faulted] }

/-- Memory may be rewritten under a Ready machine, in canonical form and below N. -/
theorem State.Inv.withMem {s : State} (h : s.Inv) (hs : s.status = .ready) {m : Memory}
    (hwf : m.wf = true) (hbelow : Memory.below s.config.memSize m = true) : { s with mem := m }.Inv :=
  inv_of_ready hs (h.faultInfo_eq_none hs) h.config_legal hwf hbelow h.pc_le h.sp_ge h.sp_lt
    h.flags_exclusive

/-! ## Faults the machine can raise -/

theorem valid_addressFault {c : Config} {a : Int} (h : a = -1 ∨ (c.memSize : Int) ≤ a) :
    (FaultRecord.addressFault a).valid c = true := by
  simpa [FaultRecord.valid] using h

theorem valid_registerFault (c : Config) {k : Nat} (h3 : 3 < k) (h255 : k ≤ 255) :
    (FaultRecord.registerFault k).valid c = true := by
  simp only [FaultRecord.valid, Bool.and_eq_true, decide_eq_true_eq]
  omega

theorem le_of_mem_fieldsOf {f : InstrFormat} {b : Byte} {k : Nat} (h : k ∈ fieldsOf f b) : k ≤ 255 := by
  have hb := byte_le b
  cases f with
  | n | b => simp [fieldsOf] at h
  | rb | r => exact List.mem_singleton.1 h ▸ hb
  | p =>
    simp only [fieldsOf, List.mem_cons, List.not_mem_nil, or_false] at h
    omega

/-- SP lies in -1..N-1, so the one address below 0 that a PUSH or a POP can check is -1. -/
theorem valid_of_execFault {s : State} (hsp : -1 ≤ s.sp) {o : Opcode} {b1 b2 : Byte} {f : FaultRecord}
    (h : execFault s o b1 b2 = some f) : f.valid s.config = true := by
  rcases execFault_eq_some h with ⟨k, hk, h3, rfl⟩ | ⟨a, -, hN, rfl⟩ | ⟨a, ha, hout, rfl⟩
  · exact valid_registerFault _ h3 (le_of_mem_fieldsOf hk)
  · exact valid_addressFault (.inr (by omega))
  · rcases finalAddress_cases b2 ha with hbyte | ⟨-, hpush⟩ | ⟨-, hpop⟩ <;>
      exact valid_addressFault (by omega)

theorem valid_of_firstFault {s : State} (h : s.Inv) (hpc : s.pc < s.config.memSize) {f : FaultRecord}
    (hf : firstFault s = some f) : f.valid s.config = true := by
  cases ho : s.config.opcodeMap.opcodeOf (cell s s.pc) with
  | none =>
    rw [firstFault_of_unknown ho] at hf
    cases hf
    simp [FaultRecord.valid, ho]
  | some o =>
    rcases Nat.lt_or_ge s.config.memSize (s.pc + o.length) with hlen | hlen
    · rw [firstFault_past_end hpc ho hlen] at hf
      cases hf
      exact valid_addressFault (.inr le_rfl)
    · rw [firstFault_of_fetched ho hlen] at hf
      exact valid_of_execFault h.sp_ge hf

/-! ## Commits and ticks -/

/-- STOP is fetched from its opcode byte. -/
theorem opcodeOf_of_fetch {s : State} {i : Instr} (h : fetch s = .ok i) :
    s.config.opcodeMap.opcodeOf (s.mem.read s.pc) = some i.opcode := by
  obtain ⟨-, o, ho, -, hi⟩ := fetch_eq_ok.1 h
  have hopcode : i.opcode = o := by
    rw [hi]
    cases o.format <;> exact assemble_opcode ..
  rw [ho, hopcode]

theorem State.Inv.commit {s t : State} {i : Instr} (h : s.Inv) (hs : s.status = .ready)
    (hf : fetch s = .ok i) (hc : Commits s i t) : t.Inv := by
  have hinfo := h.faultInfo_eq_none hs
  have hpc := hc.pc_le hf
  cases hc with
  | halt hi =>
    subst hi
    exact h.halt hs (.inr (opcodeOf_of_fetch hf))
  | move | jump | fallThrough =>
    exact inv_of_ready hs hinfo h.config_legal h.mem_wf h.mem_below hpc h.sp_ge h.sp_lt h.flags_exclusive
  | arith _ _ raw | compare _ raw =>
    exact inv_of_ready hs hinfo h.config_legal h.mem_wf h.mem_below hpc h.sp_ge h.sp_lt
      (normalizeRaw_flags_exclusive _ raw)
  | push _ ht =>
    obtain ⟨h0, hN, rfl⟩ := State.push_eq_ok.1 ht
    have hwf := Memory.wf_write h.mem_wf s.sp.toNat
    have hbelow := Memory.below_write h.mem_below (a := s.sp.toNat) (by omega)
    exact inv_of_ready hs hinfo h.config_legal (hwf _) (hbelow _) hpc (by simp only [advance_sp]; omega)
      (by simp only [advance_sp, advance_config]; omega) h.flags_exclusive
  | pop _ _ ht =>
    obtain ⟨h0, hN, rfl⟩ := State.pop_eq_ok.1 ht
    exact inv_of_ready hs hinfo h.config_legal h.mem_wf h.mem_below hpc (Int.le_trans (by omega) h0) hN
      h.flags_exclusive

/-- A tick below N that raises no fault commits the instruction fetched. -/
theorem exists_commits_of_step {s t : State} (hs : s.status = .ready) (hpc : s.pc < s.config.memSize)
    (h : step s = .next t) (ht : t.status ≠ .faulted) : ∃ i, fetch s = .ok i ∧ Commits s i t := by
  cases hf : fetch s with
  | error f =>
    rw [step_of_fetch_error hs hpc hf] at h
    cases h
    exact absurd rfl ht
  | ok i => exact ⟨i, rfl, commits_of_step hs hpc hf h ht⟩

theorem State.Inv.step_ready {s t : State} (h : s.Inv) (hs : s.status = .ready)
    (hstep : step s = .next t) : t.Inv := by
  rcases Nat.lt_or_ge s.pc s.config.memSize with hpc | hpc
  · obtain ⟨u, hu, hfault⟩ := step_faultsWith hs hpc
    cases hu.symm.trans hstep
    cases hf : firstFault s with
    | some f =>
      rw [hf] at hfault
      cases hfault
      exact h.faulted hpc (valid_of_firstFault h hpc hf)
    | none =>
      rw [hf] at hfault
      obtain ⟨i, hfetch, hc⟩ := exists_commits_of_step hs hpc hstep (hfault.status_ne_faulted hs)
      exact h.commit hs hfetch hc
  · rw [step_past_end hs hpc] at hstep
    cases hstep
    exact h.halt hs (.inl hpc)

/-! ## Reset and runs -/

theorem inv_resetWith {c : Config} (hc : c.legal = true) : (State.resetWith c).Inv := by
  have hsp : c.spInit < c.memSize := by
    simp only [Config.legal, Bool.and_eq_true, decide_eq_true_eq] at hc
    omega
  exact inv_of_ready rfl rfl hc rfl rfl (Nat.zero_le _) (by simp only [State.resetWith]; omega)
    (Int.ofNat_lt.2 hsp) rfl

/-- What every step keeps holds after any number of steps. -/
theorem run_keeps {M : Host.Core} {P : M.State → Prop}
    (hstep : ∀ s t, P s → M.step s = .next t → P t) (k : Nat) {s t : M.State} (hs : P s)
    (h : M.run k s = .next t) : P t := by
  induction k generalizing s with
  | zero =>
    cases h
    exact hs
  | succ k ih =>
    rw [Host.Core.run] at h
    split at h
    · next u hu => exact ih (hstep s u hs hu) h
    · cases h
    · cases h

end Sys2Proof.Machine
end

section
/-! The statements about the invariant, reset, launch and the loader port. -/

open Sys2Proof Sys2Proof.Machine Sys2Proof.Claims

/-- Settles O3. -/
theorem invAtReset : Obligations.InvAtReset :=
  have hdefault : Config.default.legal = true := by decide
  ⟨fun _ => inv_resetWith, hdefault, inv_resetWith hdefault⟩

/-- Settles O4, by the machine state: the tick of a Ready machine halts, takes the fault of `firstFault`,
or commits the instruction fetched. -/
theorem stepKeepsInv : Obligations.StepKeepsInv := by
  intro s t h hstep
  cases hs : s.status with
  | faulted => simp [step_of_faulted hs] at hstep
  | halted =>
    rw [step_of_halted hs] at hstep
    cases hstep
    exact h
  | ready => exact h.step_ready hs hstep

/-- Settles O59: a loader operation rewrites memory alone, in canonical form and below N. -/
theorem hostOperationsKeepInv : Obligations.HostOperationsKeepInv := by
  refine fun s h => ⟨inv_resetWith h.config_legal, fun hs a v t ht => ?_, fun hs a bytes t ht => ?_⟩
  · obtain ⟨h0, hN, rfl⟩ := State.loaderWrite_eq_ok.1 ht
    exact ⟨h.withMem hs (Memory.wf_write h.mem_wf _ _) (Memory.below_write h.mem_below (by omega) _), hs⟩
  · obtain ⟨-, -, rfl⟩ := State.bulkLoad_eq_ok.1 ht
    exact ⟨h.withMem hs (Memory.wf_load _ h.mem_wf _ _) (Memory.below_load h.mem_below _ _), hs⟩

/-- Settles O5: the launch state has the invariant, and every tick keeps it. -/
theorem launchedRunsKeepInv : Obligations.LaunchedRunsKeepInv := by
  intro c program s t k hc hlaunched hrun
  obtain ⟨-, -, hload⟩ := hostOperationsKeepInv _ (inv_resetWith hc)
  obtain ⟨hinv, -⟩ := hload rfl 0 program s hlaunched
  exact run_keeps (M := core) stepKeepsInv k hinv hrun

/-- Settles O6: the load writes memory alone, over the state of reset. -/
theorem launchState : Obligations.LaunchState := by
  intro c program hfit
  have hload := State.bulkLoad_eq_ok (s := State.resetWith c) (a := 0).2
    ⟨le_rfl, by simpa [State.resetWith] using hfit, rfl⟩
  refine ⟨_, hload, rfl, rfl, rfl, rfl, rfl, fun q => by cases q <;> rfl, rfl, rfl, fun k hk => ?_,
    fun a ha => ?_⟩
  · have hread := Memory.read_load_inside (n := c.memSize) [] (a := 0) (by omega) hk
    rwa [Nat.zero_add] at hread
  · exact Memory.read_load_outside c.memSize [] (.inr (by omega))

/-- Settles O9: the read rules after a write and after a load; outside, the refusals. -/
theorem loaderPort : Obligations.LoaderPort := by
  refine fun s a => ⟨fun v hout => State.loaderWrite_of_out hout v, fun v h0 hN => ?_,
    fun bytes => State.bulkLoad_of_out, fun bytes h0 hN => ?_⟩
  · refine ⟨_, State.loaderWrite_of_mem h0 hN v, ?_, fun b hb => Memory.read_write_other s.mem _ hb⟩
    rw [Memory.read_write_same, toNat_clampByte]
  · exact ⟨_, State.bulkLoad_eq_ok.2 ⟨h0, hN, rfl⟩,
      fun k hk => Memory.read_load_inside s.mem (by omega) hk,
      fun b hb => Memory.read_load_outside _ s.mem hb⟩
end

section
/-! The widths of the pointer registers: the least k with n ≤ 2^k, from both sides (00_scope R10). -/

namespace Sys2Proof

theorem le_two_pow_ceilLog2 (n : Nat) : n ≤ 2 ^ ceilLog2 n := by
  unfold ceilLog2
  split
  · next h => simpa using h
  · have := Nat.lt_log2_self (n := n - 1)
    omega

theorem two_pow_ceilLog2_sub_one_lt {n : Nat} (h : 2 ≤ n) : 2 ^ (ceilLog2 n - 1) < n := by
  have hlog := Nat.log2_self_le (n := n - 1) (by omega)
  rw [ceilLog2, if_neg (by omega), Nat.add_sub_cancel]
  omega

theorem one_le_ceilLog2_iff {n : Nat} : 1 ≤ ceilLog2 n ↔ 2 ≤ n := by
  unfold ceilLog2
  split <;> omega

end Sys2Proof
end

section
/-! The statement about the pointer widths. -/

open Sys2Proof Sys2Proof.Machine

/-- Settles O7: the ranges of the invariant lie within 2^k for the k of `ceilLog2`, and not within half of
it. -/
theorem pointerWidths : Obligations.PointerWidths := by
  refine ⟨fun s h => ?_, fun c hN => ?_, by decide, by decide⟩
  · have hip : s.config.memSize + 1 ≤ 2 ^ s.config.ipWidth := le_two_pow_ceilLog2 _
    have hsp : s.config.memSize ≤ 2 ^ (s.config.spWidth - 1) := le_two_pow_ceilLog2 _
    have hsp' : (s.config.memSize : Int) ≤ 2 ^ (s.config.spWidth - 1) := mod_cast hsp
    have hpos : (1 : Int) ≤ 2 ^ (s.config.spWidth - 1) := one_le_pow₀ (by decide)
    have hpc := h.pc_le
    have hge := h.sp_ge
    have hlt := h.sp_lt
    exact ⟨by omega, by omega, by omega⟩
  · have hip : 2 ^ (c.ipWidth - 1) < c.memSize + 1 := two_pow_ceilLog2_sub_one_lt (by omega)
    refine ⟨one_le_ceilLog2_iff.2 (by omega), by omega, Nat.le_add_left 1 _, fun hw => ?_⟩
    have hN2 : 2 ≤ c.memSize := one_le_ceilLog2_iff.1 (Nat.le_of_succ_le_succ hw)
    exact Nat.le_sub_one_of_lt (two_pow_ceilLog2_sub_one_lt hN2)
end
